-- ==== Sys2Proof/Word.lean ====
section
/-! DEFINITION. The plain word types of the block (spec 00_scope.md R7, R8; 20_memory.md R40).
Bits are numbered from 0 at the least significant bit (R8), as `BitVec` numbers them. -/

namespace Sys2Proof

/-- One byte of the byte-addressed space (R40). -/
abbrev Byte := BitVec 8

/-- The 32-bit command word the host presents (30_encoding.md R60). -/
abbrev CmdWord := BitVec 32

/-- The 64-bit gate descriptor word, one table slot (R23, R68). -/
abbrev DescWord := BitVec 64

/-- A 32-bit address: handler offset, stub address, handler reference or table base (R7, R40). -/
abbrev Addr := BitVec 32

/-- An opaque driver tag, TAG_W bits (R7, R27). DESIGN CHOICE: the width is a parameter, so a tag is held
as the number its bits spell; the port that brings one in keeps it below `2 ^ TAG_W`. -/
abbrev Tag := Nat

end Sys2Proof
end

