-- ==== Sys2Proof/Config.lean ====
section
/-! DEFINITION. The parameters the spec leaves OPEN (00_scope.md R7; 92_eei_decisions.md D8 to D13).
They are fixed for a run and no command changes them (10_state.md R22). `State` carries one `Config`, so a
statement about every state is a statement about every choice of the parameters. -/

namespace Sys2Proof

/-- The OPEN parameters of R7. `serviced` holds SERVICED and STUB together: the vector of each entry is
serviced and the address beside it is that vector's trap-entry stub. -/
structure Config where
  /-- N_SLOTS, the table capacity in slots. -/
  nSlots    : Nat
  /-- TABLE_BASE, the byte address of slot 0. -/
  tableBase : Addr
  /-- SERVICED with STUB(v) for each serviced vector v. -/
  serviced  : List (Nat × Addr)
  /-- KERNEL_CS, the kernel code segment selector. -/
  kernelCs  : BitVec 16
  /-- KERNEL_DPL, the kernel privilege level. -/
  kernelDpl : BitVec 2
  /-- IRQ_BASE, the lowest registry identifier. -/
  irqBase   : Nat
  /-- N_IRQ, the registry capacity. -/
  nIrq      : Nat
  /-- TAG_W, the width of the opaque driver tag. -/
  tagW      : Nat
  deriving DecidableEq, Repr

/-- The example configuration E4 of 95_test_vectors.md. DESIGN CHOICE (log entry 1): `State.reset` needs one
configuration and the spec names this one for its examples; no statement for all states rests on it. -/
def Config.e4 : Config where
  nSlots    := 4
  tableBase := 0x00102000
  serviced  := [(0, 0x00100100), (1, 0x00100110), (3, 0x00100130)]
  kernelCs  := 0x0008
  kernelDpl := 0
  irqBase   := 0
  nIrq      := 4
  tagW      := 32

end Sys2Proof
end

