-- ==== Sys2Proof/Syntax.lean ====
section
/-! DEFINITION. The commands of the block and what the host presents with one (30_encoding.md R60 to R64). -/

namespace Sys2Proof

/-- A gate-field record F (00_scope.md R10); every width is a property of the type. -/
structure GateFields where
  off  : Addr
  sel  : BitVec 16
  type : BitVec 3
  size : BitVec 1
  dpl  : BitVec 2
  p    : BitVec 1
  deriving DecidableEq, Repr

/-- A processor-context value (R7 `Ctx`): an opaque name, compared and passed on, never looked into.
DESIGN CHOICE (log entry 7): names are numbered c0, c1, ... as 95_test_vectors.md writes them. -/
structure Ctx where
  name : Nat
  deriving DecidableEq, Repr

/-- The operand ports beside the command word (R62). -/
structure Ports where
  /-- F, a gate-field record: ENCODE, INSTALL. -/
  f : GateFields
  /-- W, a descriptor word: DECODE. -/
  w : DescWord
  /-- H, a handler reference: REG. -/
  h : Addr
  /-- T, a driver tag of TAG_W bits: REG. -/
  t : Tag
  /-- C, a processor context: DISP. -/
  c : Ctx
  deriving DecidableEq, Repr

/-- What the host presents at one step: a command word and the operand ports (R60). -/
structure Request where
  cw    : CmdWord
  ports : Ports
  deriving DecidableEq, Repr

/-- The eleven commands (R64), each with the fields of its command word. A slot number v and an identifier i
are unsigned integers 0..255 (R61; checked by `Instr.wellFormed`). Port operands are no part of the command word. -/
inductive Instr where
  /-- R82. -/
  | encode
  /-- R83. -/
  | decode
  /-- R90. -/
  | install (v : Nat)
  /-- R91. -/
  | rdslot (v : Nat)
  /-- R93. -/
  | init
  /-- R95. -/
  | load
  /-- R125. -/
  | setie (b : Bool)
  /-- R106. -/
  | reg (i : Nat)
  /-- R108. -/
  | disp (i : Nat)
  /-- R111. -/
  | ret (i : Nat)
  /-- R120. -/
  | dlv (v : Nat)
  deriving DecidableEq, Repr

end Sys2Proof
end

