-- ==== Sys2Proof/WellFormed.lean ====
section
/-! DEFINITION. The check on a command's fields: `idx` is an 8-bit unsigned integer (30_encoding.md R61). -/

namespace Sys2Proof

/-- `idx` fits its eight bits (R61). An `idx` the configuration lacks is still well formed: the command's own
rule checks it (R66). -/
def fitsIdx (n : Nat) : Bool := decide (n < 256)

/-- A command whose fields fit the command word. -/
def Instr.wellFormed : Instr → Bool
  | .encode    => true
  | .decode    => true
  | .install v => fitsIdx v
  | .rdslot v  => fitsIdx v
  | .init      => true
  | .load      => true
  | .setie _   => true
  | .reg i     => fitsIdx i
  | .disp i    => fitsIdx i
  | .ret i     => fitsIdx i
  | .dlv v     => fitsIdx v

end Sys2Proof
end

