-- ==== Sys2Proof/Decode.lean ====
section
/-! DEFINITION. The command-word decoder and encoder (30_encoding.md R60 to R66). -/

namespace Sys2Proof

/-- Why a word selects no row (R65 lists these four); all of them raise IllegalCommand. -/
inductive IllegalWord where
  /-- `op` = 0x0 or 0xC to 0xF. -/
  | noSuchOp
  /-- Some bit of `rsvd` is set. -/
  | reservedBits
  /-- `b` = 1 with `op` other than 0x7. -/
  | strayEnable
  /-- `idx` nonzero with `op` in {0x1, 0x2, 0x5, 0x6, 0x7}. -/
  | strayIndex
  deriving DecidableEq, Repr

/-- Field `op`, cw[3:0] (R61). -/
def opField (cw : CmdWord) : Nat := (cw.extractLsb' 0 4).toNat

/-- Field `idx`, cw[11:4], zero-extended (R61). -/
def idxField (cw : CmdWord) : Nat := (cw.extractLsb' 4 8).toNat

/-- Field `b`, cw[12] (R61). -/
def bField (cw : CmdWord) : Bool := cw.getLsbD 12

/-- Field `rsvd`, cw[31:13] (R61). -/
def rsvdField (cw : CmdWord) : Nat := (cw.extractLsb' 13 19).toNat

/-- One row of the opcode map (R64): a word is of this row when its masked bits are `pat`; `make` builds
the command from the fields `idx` and `b`. -/
structure OpRow where
  mask : CmdWord
  pat  : CmdWord
  make : Nat → Bool → Instr

/-- R64: "A word cw selects a row when `(cw & mask) == match`." -/
def OpRow.selects (r : OpRow) (cw : CmdWord) : Bool := (cw &&& r.mask) == r.pat

/-- The opcode map, row for row as R64 prints it. -/
def opcodeMap : List OpRow := [
  ⟨0xFFFFFFFF, 0x00000001, fun _ _ => .encode⟩,
  ⟨0xFFFFFFFF, 0x00000002, fun _ _ => .decode⟩,
  ⟨0xFFFFF00F, 0x00000003, fun v _ => .install v⟩,
  ⟨0xFFFFF00F, 0x00000004, fun v _ => .rdslot v⟩,
  ⟨0xFFFFFFFF, 0x00000005, fun _ _ => .init⟩,
  ⟨0xFFFFFFFF, 0x00000006, fun _ _ => .load⟩,
  ⟨0xFFFFEFFF, 0x00000007, fun _ b => .setie b⟩,
  ⟨0xFFFFF00F, 0x00000008, fun i _ => .reg i⟩,
  ⟨0xFFFFF00F, 0x00000009, fun i _ => .disp i⟩,
  ⟨0xFFFFF00F, 0x0000000A, fun i _ => .ret i⟩,
  ⟨0xFFFFF00F, 0x0000000B, fun v _ => .dlv v⟩]

/-- The name of the reason a word that selects no row is illegal, in the order R65 lists them. -/
def whyIllegal (cw : CmdWord) : IllegalWord :=
  if opField cw = 0 ∨ 0xC ≤ opField cw then .noSuchOp
  else if rsvdField cw ≠ 0 then .reservedBits
  else if bField cw ∧ opField cw ≠ 7 then .strayEnable
  else .strayIndex

/-- The decoder: total, one meaning or one named reason for every word (R65, R66). -/
def decode (cw : CmdWord) : Except IllegalWord Instr :=
  match opcodeMap.find? (fun r => r.selects cw) with
  | some r => .ok (r.make (idxField cw) (bField cw))
  | none => .error (whyIllegal cw)

/-- A command word from its fields, `rsvd` zero (R61). -/
def cmdWord (op idx : Nat) (b : Bool) : CmdWord :=
  BitVec.ofNat 32 op ||| BitVec.ofNat 32 idx <<< 4 ||| (BitVec.ofBool b).setWidth 32 <<< 12

/-- The word of a well-formed command (R61, R64). -/
def encode : Instr → CmdWord
  | .encode    => cmdWord 0x1 0 false
  | .decode    => cmdWord 0x2 0 false
  | .install v => cmdWord 0x3 v false
  | .rdslot v  => cmdWord 0x4 v false
  | .init      => cmdWord 0x5 0 false
  | .load      => cmdWord 0x6 0 false
  | .setie b   => cmdWord 0x7 0 b
  | .reg i     => cmdWord 0x8 i false
  | .disp i    => cmdWord 0x9 i false
  | .ret i     => cmdWord 0xA i false
  | .dlv v     => cmdWord 0xB v false

/-- The command word whose low `nbits` bits are those of `w`, every bit above them 0. -/
def wordOfBits (nbits w : Nat) : CmdWord := BitVec.ofNat 32 (w % 2 ^ nbits)

/-- What the decoder reads from a word given as the opcode table numbers its bits. A command is exactly one
32-bit word (R60), so a row of more than 32 bits is none of the block's. -/
def decodeTableWord (nbits w : Nat) : Option Instr :=
  if nbits ≤ 32 then (decode (wordOfBits nbits w)).toOption else none

end Sys2Proof
end

