-- ==== Sys2Proof/Machine/State.lean ====
section
/-! DEFINITION. The block's state (10_state.md R20 to R29), the host interface the model adds to it (R6, R60 to
R63), the reasons a step can stop, and reset (70_reset_and_hazards.md R160 to R162). -/

namespace Sys2Proof.Machine

/-- The Table Manager's phase (R24). -/
inductive Phase where
  | uninitialized
  | built
  | active
  deriving DecidableEq, Repr

/-- The table-register image (R25): limit and base. -/
structure Idtr where
  limit : BitVec 16
  base  : Addr
  deriving DecidableEq, Repr

/-- One registry entry `{bound:1, handler:32, tag:TAG_W}` (R27). -/
structure RegEntry where
  bound   : Bool
  handler : Addr
  tag     : Tag
  deriving DecidableEq, Repr

/-- The fault codes' names (60_exceptions.md R133); their numbers are `faultCode`. -/
inductive FaultName where
  | illegalCommand
  | slotOutOfRange
  | initWhileEnabled
  | loadBeforeInit
  | loadWhileEnabled
  | enableBeforeLoad
  | registerBeforeInit
  | reentrantDispatch
  | retireMismatch
  | undefinedDelivery
  | unmodelledGate
  deriving DecidableEq, Repr

/-- REG's result (R131); its number is `statusCode`. -/
inductive Status where
  | ok
  | alreadyBound
  | invalidVector
  deriving DecidableEq, Repr

/-- A response, exactly one of R63's nine forms. -/
inductive Response where
  | done
  | word (w : DescWord)
  | fields (f : GateFields) (rsvdNz : Bool)
  | idtr (m : BitVec 48)
  | status (s : Status)
  | call (h : Addr) (t : Tag) (c : Ctx)
  | drop (i : Nat)
  | entry (off : Addr) (sel : BitVec 16) (type : BitVec 3) (dpl : BitVec 2)
  | fault (code : BitVec 4)
  deriving DecidableEq, Repr

/-- The byte-addressed space as the bytes that differ from what an unlisted address reads as (R40, R41):
addresses strictly rising, no unlisted value listed (`Memory.wf`). -/
abbrev Memory := List Host.Cell

/-- The block's state (R22), with the configuration it runs under and the host's side of the interface. -/
structure State where
  /-- The parameters (R7); no command changes them. -/
  cfg       : Config
  /-- The byte image of `table` (R23, R41). -/
  mem       : Memory
  /-- `phase` (R24). -/
  phase     : Phase
  /-- `idtr` (R25). -/
  idtr      : Idtr
  /-- `idtr_valid` (R25). -/
  idtrValid : Bool
  /-- `ie` (R26). -/
  ie        : Bool
  /-- `reg`, entry of identifier i at index i - IRQ_BASE (R27). -/
  reg       : List RegEntry
  /-- `in_service`, innermost last (R28). -/
  inService : List Nat
  /-- `fault` (R29). -/
  fault     : BitVec 4
  /-- The model's own: the commands the host has still to issue, the next one first (R6, R60). -/
  pending   : List Request
  /-- The model's own: the operand ports as presented with the command being performed (R62). -/
  ports     : Ports
  /-- The model's own: the response of the last step, none if it performed no command (R63). -/
  resp      : Option Response
  deriving DecidableEq, Repr

/-- Why a step stops with no next state. -/
inductive Fault where
  /-- Raised by every command, and every illegal word, presented while `fault` is nonzero: the block performs no
  command and the command has no step (R132, R29). Safe: the spec itself gives the block no further step. -/
  | blockFaulted
  deriving DecidableEq, Repr

/-- Why a command has no meaning in the model. -/
inductive Refusal where
  /-- A command with no meaning yet. Raised by no arm of this model. Safe: nothing is claimed of it. -/
  | notModelled (mnemonic : String)
  /-- Raised by every command under a configuration that breaks a constraint of R7; of a table that would wrap
  the spec says it is refused (R45). Safe: no run of the block has such a configuration. -/
  | badConfig
  deriving DecidableEq, Repr

/-- A registry entry no REG has written. `bound` = 0 is the spec's reset value (R27); `handler` and `tag` are
unspecified and never read, DESIGN CHOICE 0 (log entry 4). -/
def RegEntry.unbound : RegEntry := ⟨false, 0, 0⟩

/-- The operand ports before the host has presented any. DESIGN CHOICE 0 (log entry 5). -/
def Ports.idle : Ports := ⟨⟨0, 0, 0, 0, 0, 0⟩, 0, 0, 0, ⟨0⟩⟩

/-- Reset under configuration `c` with the host about to issue `reqs` (R160, R161). `idtr` is unspecified and
never read before LOAD, DESIGN CHOICE 0 (log entry 3). -/
def State.resetWith (c : Config) (reqs : List Request) : State where
  cfg       := c
  mem       := []
  phase     := .uninitialized
  idtr      := ⟨0, 0⟩
  idtrValid := false
  ie        := false
  reg       := List.replicate c.nIrq RegEntry.unbound
  inService := []
  fault     := 0
  pending   := reqs
  ports     := Ports.idle
  resp      := none

/-- The block right after reset, under the spec's example configuration (log entry 1), no command issued yet. -/
def State.reset : State := State.resetWith Config.e4 []

end Sys2Proof.Machine
end

