-- ==== Sys2Proof/Machine/Flags.lean ====
section
/-! DEFINITION. The numbers the spec gives its named results: the block has no flag register (10_state.md R30),
so its only flags are the result codes and DECODE's reserved-bits bit. -/

namespace Sys2Proof.Machine

/-- The fault codes (60_exceptions.md R133). -/
def faultCode : FaultName → BitVec 4
  | .illegalCommand     => 1
  | .slotOutOfRange     => 2
  | .initWhileEnabled   => 3
  | .loadBeforeInit     => 4
  | .loadWhileEnabled   => 5
  | .enableBeforeLoad   => 6
  | .registerBeforeInit => 7
  | .reentrantDispatch  => 8
  | .retireMismatch     => 9
  | .undefinedDelivery  => 10
  | .unmodelledGate     => 11

/-- The status codes (R131; 92_eei_decisions.md D7). -/
def statusCode : Status → Nat
  | .ok            => 0
  | .alreadyBound  => 1
  | .invalidVector => 2

/-- The 2-bit encoding of `phase` (R24). -/
def phaseCode : Phase → BitVec 2
  | .uninitialized => 0
  | .built         => 1
  | .active        => 2

/-- The reserved mask RSVD: bits 39..32 and bit 44 (30_encoding.md R69). -/
def rsvdMask : DescWord := 0x000010FF00000000

/-- The `rsvd_nz` bit: some reserved bit of the word is set (40_codec.md R81). -/
def rsvdNonzero (w : DescWord) : Bool := (w &&& rsvdMask) != 0

end Sys2Proof.Machine
end

