-- ==== Sys2Proof/Machine/Ops.lean ====
section
/-! DEFINITION. The named operations over the configuration, memory, the table bank, the registry bank and the
in-service stack; how a command starts, answers and faults; and the host's side of a step. -/

namespace Sys2Proof.Machine

/-! ### The configuration -/

/-- The constraints of 00_scope.md R7 on the parameters; that the table does not wrap is 20_memory.md R45. -/
def configValid (c : Config) : Bool :=
  decide (1 ≤ c.nSlots ∧ c.nSlots ≤ 256
    ∧ c.tableBase.toNat + 8 * c.nSlots - 1 ≤ 0xFFFFFFFF
    ∧ (∀ e ∈ c.serviced, e.1 < c.nSlots) ∧ (c.serviced.map Prod.fst).Nodup
    ∧ c.irqBase ≤ 255 ∧ 1 ≤ c.nIrq ∧ c.irqBase + c.nIrq ≤ 256
    ∧ 1 ≤ c.tagW)

/-- STUB(v), for v in SERVICED; none for an unserviced vector (R7). -/
def stubOf (c : Config) (v : Nat) : Option Addr := c.serviced.lookup v

/-- `valid_irq(i)` (42_dispatch_registry.md R105). -/
def validIrq (c : Config) (i : Nat) : Bool := decide (c.irqBase ≤ i ∧ i < c.irqBase + c.nIrq)

/-- The limit of the table-register image (41_table_manager.md R96). -/
def tableLimit (c : Config) : BitVec 16 := BitVec.ofNat 16 (8 * c.nSlots - 1)

/-! ### Memory -/

/-- What an address that is not listed reads as: every slot resets to 0 (10_state.md R23, D14). -/
def unlistedByte : Byte := 0

/-- The canonical form: addresses strictly rising, and no entry equal to what an unlisted address reads as. -/
abbrev Memory.wf (m : Memory) : Prop :=
  m.Pairwise (fun c d => c.1 < d.1) ∧ ∀ c ∈ m, c.2 ≠ unlistedByte

/-- The byte at an address. -/
def Memory.get : Memory → Nat → Byte
  | [], _ => unlistedByte
  | (k, c) :: m, a => if a = k then c else Memory.get m a

/-- A byte put in front, unless an unlisted address reads as it. -/
def consByte (a : Nat) (b : Byte) (m : Memory) : Memory := if b = unlistedByte then m else (a, b) :: m

/-- Write one byte and keep the canonical form. -/
def Memory.put : Memory → Nat → Byte → Memory
  | [], a, b => consByte a b []
  | (k, c) :: m, a, b =>
    if a < k then consByte a b ((k, c) :: m)
    else if a = k then consByte a b m
    else (k, c) :: Memory.put m a b

/-- `MemWrite(addr, n, v)` (00_scope.md R9), the n bytes of v given lowest address first. -/
def Memory.putBytes (m : Memory) (a : Nat) : List Byte → Memory
  | [] => m
  | b :: bs => Memory.putBytes (m.put a b) (a + 1) bs

/-- `MemRead(addr, n)` (R9), the n bytes lowest address first. -/
def Memory.getBytes (m : Memory) (a : Nat) : Nat → List Byte
  | 0 => []
  | n + 1 => m.get a :: Memory.getBytes m (a + 1) n

/-- Byte k of a descriptor word: `w[8k+7:8k]` (20_memory.md R41). -/
def wordByte (w : DescWord) (k : Nat) : Byte := w.extractLsb' (8 * k) 8

/-- The little-endian byte image of a descriptor word (R41). -/
def wordBytes (w : DescWord) : List Byte := (List.range 8).map (wordByte w)

/-- A little-endian byte list read as a number: the first byte is the least significant (R41). -/
def leNat : List Byte → Nat
  | [] => 0
  | b :: bs => b.toNat + 256 * leNat bs

/-! ### The table bank (R23, R40, R41) -/

/-- The byte address of slot v: slots are 8 bytes apart from TABLE_BASE (R41, R49). -/
def slotAddr (c : Config) (v : Nat) : Nat := c.tableBase.toNat + 8 * v

/-- `table[v]` (R9). -/
def State.slot (s : State) (v : Nat) : DescWord := BitVec.ofNat 64 (leNat (s.mem.getBytes (slotAddr s.cfg v) 8))

/-- `table[v] <- w` (R9), all 64 bits in one step (R46). -/
def State.setSlot (s : State) (v : Nat) (w : DescWord) : State :=
  { s with mem := s.mem.putBytes (slotAddr s.cfg v) (wordBytes w) }

/-- Write the first n slots, slot v with `f v`. -/
def State.setSlots (s : State) (f : Nat → DescWord) : Nat → State
  | 0 => s
  | n + 1 => (State.setSlots s f n).setSlot n (f n)

/-- The address is one of the table's bytes: TABLE_BASE to TABLE_BASE + 8*N_SLOTS - 1 (R40). -/
def inTable (c : Config) (a : Nat) : Bool :=
  decide (c.tableBase.toNat ≤ a ∧ a < c.tableBase.toNat + 8 * c.nSlots)

/-- What a reader of the byte image sees at an address (R9, R41): the table's bytes, and nothing of any other
address, since the block holds no other (R40). No command calls it. -/
def State.imageByte (s : State) (a : Nat) : Option Byte := if inTable s.cfg a then some (s.mem.get a) else none

/-! ### The table register (R25, R42, R72) -/

/-- The 48-bit image: `m = base ++ limit` (30_encoding.md R72). -/
def Idtr.image (r : Idtr) : BitVec 48 := r.base ++ r.limit

/-- The byte image of the table register: byte k holds image bits 8k+7..8k (R42). -/
def imageBytes (m : BitVec 48) : List Byte := (List.range 6).map (fun k => m.extractLsb' (8 * k) 8)

/-- LOAD's write of `idtr`, `idtr_valid` and `phase`, one step (R95). -/
def State.installIdtr (s : State) (r : Idtr) : State := { s with idtr := r, idtrValid := true, phase := .active }

/-! ### Phase and enable (R24, R26) -/

/-- `phase <- p`. -/
def State.setPhase (s : State) (p : Phase) : State := { s with phase := p }

/-- `ie <- b`. -/
def State.setIe (s : State) (b : Bool) : State := { s with ie := b }

/-! ### The registry bank (R27) -/

/-- `reg[i]`; read only for an identifier of the serviced range. -/
def State.regAt (s : State) (i : Nat) : RegEntry := s.reg.getD (i - s.cfg.irqBase) RegEntry.unbound

/-- `reg[i] <- e`. -/
def State.setReg (s : State) (i : Nat) (e : RegEntry) : State :=
  { s with reg := s.reg.set (i - s.cfg.irqBase) e }

/-- `valid_irq(i) and reg[i].bound = 1`, the test of DISP (R108). -/
def State.isBound (s : State) (i : Nat) : Bool := validIrq s.cfg i && (s.regAt i).bound

/-! ### The in-service stack (R28) -/

/-- `push(in_service, i)`: the innermost is last. -/
def State.pushService (s : State) (i : Nat) : State := { s with inService := s.inService ++ [i] }

/-- `top(in_service)`. -/
def State.topService (s : State) : Option Nat := s.inService.getLast?

/-- `pop(in_service)`: the return from a handler restores nothing else (R111, R140). -/
def State.popService (s : State) : State := { s with inService := s.inService.dropLast }

/-! ### How a command starts, answers and faults -/

/-- The outcome of a command. -/
abbrev Result := Host.Outcome State Fault Refusal

/-- `respond(r)`: the command ends with response r (R9, R63). -/
def State.respond (s : State) (r : Response) : Result := .next { s with resp := some r }

/-- `raise Fault(code)`, the one way into a fault: it writes `fault` and nothing else of the block and responds
`Fault(code)` (60_exceptions.md R132). `s` is the state the command found. -/
def State.raise (s : State) (f : FaultName) : Result :=
  .next { s with fault := faultCode f, resp := some (.fault (faultCode f)) }

/-- Before any other check every command tests `fault` = 0; while it is nonzero the command has no step (R132,
R134). A configuration outside R7's constraints is refused (R45; log entry 9). -/
def State.perform (s : State) (r : Result) : Result :=
  if configValid s.cfg then
    if s.fault = 0 then r else .fault .blockFaulted
  else .refused .badConfig

/-- Performing a word that selects no row (30_encoding.md R65). -/
def State.illegalWord (s : State) : Result := s.perform (s.raise .illegalCommand)

/-! ### The host's side of a step (R6, R60) -/

/-- The command `r` leaves the host's list and its operands stand on the ports. -/
def State.accept (s : State) (r : Request) (rest : List Request) : State :=
  { s with pending := rest, ports := r.ports }

/-- No command is issued: the block waits without changing its state and gives no response (R151). -/
def State.idle (s : State) : State := { s with resp := none }

/-- The host's next command word becomes `cw`; its operands stay what they are, and those of the ports where the
host had no command left to issue. -/
def State.placeWord (s : State) (cw : CmdWord) : State :=
  match s.pending with
  | [] => { s with pending := [⟨cw, s.ports⟩] }
  | r :: rest => { s with pending := { r with cw := cw } :: rest }

end Sys2Proof.Machine
end

