-- ==== Sys2Proof/Machine/Operands.lean ====
section
/-! DEFINITION. The operand forms of the commands: the operand ports (30_encoding.md R62). The fields `idx` and
`b` of the command word are in the command itself (R61, `decode`). -/

namespace Sys2Proof.Machine

/-- Port F: ENCODE, INSTALL. -/
def State.portF (s : State) : GateFields := s.ports.f

/-- Port W: DECODE. -/
def State.portW (s : State) : DescWord := s.ports.w

/-- Port H: REG. -/
def State.portH (s : State) : Addr := s.ports.h

/-- Port T: REG. It is TAG_W bits wide, so it carries a tag's low TAG_W bits (DESIGN CHOICE, log entry 8). -/
def State.portT (s : State) : Tag := s.ports.t % 2 ^ s.cfg.tagW

/-- Port C: DISP. -/
def State.portC (s : State) : Ctx := s.ports.c

end Sys2Proof.Machine
end

