-- ==== Sys2Proof/Machine/Codec.lean ====
section
/-! DEFINITION. The Gate Descriptor Codec: the functions `encode` and `decode` on gate words and the commands
ENCODE and DECODE (40_codec.md R80 to R87). -/

namespace Sys2Proof.Machine

/-- `encode(F)`: every field at the position of 30_encoding.md R68, every reserved bit 0 (R80). -/
def encodeGate (f : GateFields) : DescWord :=
  (f.off.extractLsb' 0 16).setWidth 64
    ||| f.sel.setWidth 64 <<< 16
    ||| f.type.setWidth 64 <<< 40
    ||| f.size.setWidth 64 <<< 43
    ||| f.dpl.setWidth 64 <<< 45
    ||| f.p.setWidth 64 <<< 47
    ||| (f.off.extractLsb' 16 16).setWidth 64 <<< 48

/-- The fields of `decode(w)`; reserved bits change none of them (R81). -/
def gateFields (w : DescWord) : GateFields where
  off  := w.extractLsb' 48 16 ++ w.extractLsb' 0 16
  sel  := w.extractLsb' 16 16
  type := w.extractLsb' 40 3
  size := w.extractLsb' 43 1
  dpl  := w.extractLsb' 45 2
  p    := w.extractLsb' 47 1

/-- `decode(w) -> (F, rsvd_nz)` (R81). -/
def decodeGate (w : DescWord) : GateFields × Bool := (gateFields w, rsvdNonzero w)

/-- ENCODE (R82). -/
def execEncode (s : State) : Result :=
  s.perform (s.respond (.word (encodeGate s.portF)))

/-- DECODE (R83). -/
def execDecode (s : State) : Result :=
  s.perform (s.respond (.fields (decodeGate s.portW).1 (decodeGate s.portW).2))

end Sys2Proof.Machine
end

