-- ==== Sys2Proof/Machine/Cpu.lean ====
section
/-! DEFINITION. The processor interface: DLV and SETIE (43_cpu_interface.md R120 to R127). -/

namespace Sys2Proof.Machine

/-- The gate has a meaning on the read path: no reserved bit, type 6 or 7, 32-bit size (R120). -/
def gateModelled (w : DescWord) : Bool :=
  !(decodeGate w).2 && ((decodeGate w).1.type == 6 || (decodeGate w).1.type == 7) && (decodeGate w).1.size == 1

/-- `Entry(off, sel, type, dpl)` through a gate with these fields (R120, R122). -/
def gateEntry (f : GateFields) : Response := .entry f.off f.sel f.type f.dpl

/-- DLV (R120): the three UndefinedDelivery tests, then UnmodelledGate (R134). -/
def execDlv (v : Nat) (s : State) : Result :=
  s.perform <|
    if ¬ s.idtrValid then s.raise .undefinedDelivery
    else if 8 * v + 7 > s.idtr.limit.toNat then s.raise .undefinedDelivery
    else if (decodeGate (s.slot v)).1.p = 0 then s.raise .undefinedDelivery
    else if ¬ gateModelled (s.slot v) then s.raise .unmodelledGate
    else s.respond (gateEntry (decodeGate (s.slot v)).1)

/-- SETIE (R125). -/
def execSetie (b : Bool) (s : State) : Result :=
  s.perform <|
    if b ∧ s.phase ≠ .active then s.raise .enableBeforeLoad
    else (s.setIe b).respond .done

end Sys2Proof.Machine
end

