-- ==== Sys2Proof/Machine/Registry.lean ====
section
/-! DEFINITION. The IRQ Dispatch Registry: REG, DISP and RET (42_dispatch_registry.md R105 to R113). -/

namespace Sys2Proof.Machine

/-- REG (R106). -/
def execReg (i : Nat) (s : State) : Result :=
  s.perform <|
    if s.phase = .uninitialized then s.raise .registerBeforeInit
    else if ¬ validIrq s.cfg i then s.respond (.status .invalidVector)
    else if (s.regAt i).bound then s.respond (.status .alreadyBound)
    else (s.setReg i ⟨true, s.portH, s.portT⟩).respond (.status .ok)

/-- DISP (R108). -/
def execDisp (i : Nat) (s : State) : Result :=
  s.perform <|
    if i ∈ s.inService then s.raise .reentrantDispatch
    else if s.isBound i then
      (s.pushService i).respond (.call (s.regAt i).handler (s.regAt i).tag s.portC)
    else s.respond (.drop i)

/-- RET (R111). -/
def execRet (i : Nat) (s : State) : Result :=
  s.perform <|
    if s.topService = some i then s.popService.respond .done
    else s.raise .retireMismatch

end Sys2Proof.Machine
end

