-- ==== Sys2Proof/Machine/TableManager.lean ====
section
/-! DEFINITION. The IDT Table Manager: INSTALL, RDSLOT, INIT and LOAD (41_table_manager.md R90 to R98). -/

namespace Sys2Proof.Machine

/-- The fields of the kernel gate to a stub: interrupt-gate type, 32-bit size, kernel selector and privilege,
present (R92). -/
def kernelGate (c : Config) (stub : Addr) : GateFields := ⟨stub, c.kernelCs, 6, 1, c.kernelDpl, 1⟩

/-- What INIT writes to slot v: `(v in SERVICED) ? KGATE(v) : 0` (R92, R93). -/
def initWord (c : Config) (v : Nat) : DescWord :=
  match stubOf c v with
  | some stub => encodeGate (kernelGate c stub)
  | none => 0

/-- INIT's phase transition (R94). -/
def nextPhaseInit : Phase → Phase
  | .uninitialized => .built
  | .built         => .built
  | .active        => .active

/-- INSTALL (R90). -/
def execInstall (v : Nat) (s : State) : Result :=
  s.perform <|
    if v ≥ s.cfg.nSlots then s.raise .slotOutOfRange
    else (s.setSlot v (encodeGate s.portF)).respond .done

/-- RDSLOT (R91). -/
def execRdslot (v : Nat) (s : State) : Result :=
  s.perform <|
    if v ≥ s.cfg.nSlots then s.raise .slotOutOfRange
    else s.respond (.word (s.slot v))

/-- INIT (R93). -/
def execInit (s : State) : Result :=
  s.perform <|
    if s.ie then s.raise .initWhileEnabled
    else ((s.setSlots (initWord s.cfg) s.cfg.nSlots).setPhase (nextPhaseInit s.phase)).respond .done

/-- The image LOAD computes (R95, R96). -/
def loadImage (c : Config) : Idtr := ⟨tableLimit c, c.tableBase⟩

/-- LOAD (R95). -/
def execLoad (s : State) : Result :=
  s.perform <|
    if s.phase = .uninitialized then s.raise .loadBeforeInit
    else if s.ie then s.raise .loadWhileEnabled
    else (s.installIdtr (loadImage s.cfg)).respond (.idtr (loadImage s.cfg).image)

end Sys2Proof.Machine
end

