-- ==== Sys2Proof/Machine/Dispatch.lean ====
section
/-! DEFINITION. One arm per command (30_encoding.md R64), each one direct call of its meaning. -/

namespace Sys2Proof.Machine

def exec (i : Instr) (s : State) : Host.Outcome State Fault Refusal :=
  match i with
  | .encode => Sys2Proof.Machine.execEncode s
  | .decode => Sys2Proof.Machine.execDecode s
  | .install v => Sys2Proof.Machine.execInstall v s
  | .rdslot v => Sys2Proof.Machine.execRdslot v s
  | .init => Sys2Proof.Machine.execInit s
  | .load => Sys2Proof.Machine.execLoad s
  | .setie b => Sys2Proof.Machine.execSetie b s
  | .reg n => Sys2Proof.Machine.execReg n s
  | .disp n => Sys2Proof.Machine.execDisp n s
  | .ret n => Sys2Proof.Machine.execRet n s
  | .dlv v => Sys2Proof.Machine.execDlv v s

end Sys2Proof.Machine
end

