-- ==== Sys2Proof/Machine/Step.lean ====
section
/-! DEFINITION. One step of the block: one command, atomically, or waiting for one (00_scope.md R6; 30_encoding.md
R60; 60_exceptions.md R132, R151). -/

namespace Sys2Proof.Machine

/-- The block takes the host's next command and performs it; with no command issued it waits. -/
def step (s : State) : Host.Outcome State Fault Refusal :=
  match s.pending with
  | [] => .next s.idle
  | r :: rest =>
    match decode r.cw with
    | .ok i => exec i (s.accept r rest)
    | .error _ => (s.accept r rest).illegalWord

/-- `s` with the word of `nbits` bits `w` (higher bits 0) as the host's next command word. -/
def State.withFetchWord (s : State) (nbits w : Nat) : State := s.placeWord (wordOfBits nbits w)

end Sys2Proof.Machine
end

