-- ==== Sys2Proof/Machine/Assembler.lean ====
section
/-! DEFINITION. The assembler of 30_encoding.md R73 and the pseudo-instructions of R74: from a line of text to the
command word and operand ports the host presents. Operands stand in the order R73 shows them. -/

namespace Sys2Proof.Machine

/-- Why an assembler refuses a line (R73). -/
inductive AsmError where
  /-- "an unknown mnemonic". -/
  | unknownMnemonic
  /-- "a missing operand". -/
  | missingOperand
  /-- "an operand that does not fit its width". -/
  | doesNotFit
  /-- A token that is not of the form R73 gives: a number, a `name=value` of the name shown, or one too many. -/
  | malformed
  deriving DecidableEq, Repr

/-! ### Characters to tokens -/

/-- Tokens are separated by blanks and commas. -/
def isSeparator (c : Char) : Bool := c = ' ' || c = ',' || c = '\t' || c = '\r'

/-- The token read so far, if any, in front of the others. -/
def flushToken (cur : List Char) (ts : List (List Char)) : List (List Char) := if cur = [] then ts else cur :: ts

/-- The tokens of a line; `;` starts a comment. -/
def tokensFrom (cur : List Char) : List Char → List (List Char)
  | [] => flushToken cur []
  | c :: cs =>
    if c = ';' then flushToken cur []
    else if isSeparator c then flushToken cur (tokensFrom [] cs)
    else tokensFrom (cur ++ [c]) cs

/-- The value of a digit in base 16; a decimal digit is one below 10. -/
def digitValue (c : Char) : Option Nat :=
  if '0' ≤ c ∧ c ≤ '9' then some (c.toNat - '0'.toNat)
  else if 'a' ≤ c ∧ c ≤ 'f' then some (c.toNat - 'a'.toNat + 10)
  else if 'A' ≤ c ∧ c ≤ 'F' then some (c.toNat - 'A'.toNat + 10)
  else none

/-- The number the digits spell in a base, after `acc`. -/
def digitsFrom (base acc : Nat) : List Char → Option Nat
  | [] => some acc
  | c :: cs =>
    match digitValue c with
    | some d => if d < base then digitsFrom base (base * acc + d) cs else none
    | none => none

/-- "numbers are decimal or `0x` hexadecimal". -/
def parseNumber : List Char → Except AsmError Nat
  | [] => .error .malformed
  | ['0', 'x'] => .error .malformed
  | '0' :: 'x' :: cs => ((digitsFrom 16 0 cs).map Except.ok).getD (.error .malformed)
  | cs => ((digitsFrom 10 0 cs).map Except.ok).getD (.error .malformed)

/-- A number of at most `bits` bits. -/
def parseBits (bits : Nat) (tok : List Char) : Except AsmError Nat := do
  let n ← parseNumber tok
  if n < 2 ^ bits then .ok n else .error .doesNotFit

/-- The value text of a `name=value` token. -/
def namedValue (name : String) (tok : List Char) : Except AsmError (List Char) :=
  if tok.take (name.toList.length + 1) = name.toList ++ ['='] then .ok (tok.drop (name.toList.length + 1))
  else .error .malformed

/-- A `name=value` operand of `bits` bits. -/
def namedBits (name : String) (bits : Nat) (tok : List Char) : Except AsmError Nat := do
  parseBits bits (← namedValue name tok)

/-- `ctx=<Ctx>`: a context name c0, c1, ... (95_test_vectors.md). -/
def namedCtx (tok : List Char) : Except AsmError Ctx := do
  match ← namedValue "ctx" tok with
  | 'c' :: cs => do let n ← parseNumber cs; .ok ⟨n⟩
  | _ => .error .malformed

/-- The complaint about a wrong number of operand tokens. -/
def wrongCount (found wanted : Nat) : AsmError := if found < wanted then .missingOperand else .malformed

/-! ### Requests -/

/-- A command with no port operand. -/
def plainRequest (i : Instr) : Request := ⟨encode i, Ports.idle⟩

/-- A command with gate fields on port F. -/
def gateRequest (i : Instr) (f : GateFields) : Request := ⟨encode i, { Ports.idle with f := f }⟩

/-- `CLEAR <v>` (R74). -/
def pseudoClear (v : Nat) : Request := gateRequest (.install v) ⟨0, 0, 0, 0, 0, 0⟩

/-- `IGATE <v>, <h>` (R74): the gate INIT builds. -/
def pseudoIgate (c : Config) (v : Nat) (h : Addr) : Request := gateRequest (.install v) (kernelGate c h)

/-- `TGATE <v>, <h>, <d>` (R74). -/
def pseudoTgate (c : Config) (v : Nat) (h : Addr) (d : BitVec 2) : Request :=
  gateRequest (.install v) ⟨h, c.kernelCs, 7, 1, d, 1⟩

/-- `EI` (R74). -/
def pseudoEi : Request := plainRequest (.setie true)

/-- `DI` (R74). -/
def pseudoDi : Request := plainRequest (.setie false)

/-! ### Lines -/

/-- The six gate operands `off=, sel=, type=, size=, dpl=, p=`. -/
def parseGate : List (List Char) → Except AsmError GateFields
  | [o, s, t, z, d, p] => do
    let o ← namedBits "off" 32 o
    let s ← namedBits "sel" 16 s
    let t ← namedBits "type" 3 t
    let z ← namedBits "size" 1 z
    let d ← namedBits "dpl" 2 d
    let p ← namedBits "p" 1 p
    .ok ⟨.ofNat 32 o, .ofNat 16 s, .ofNat 3 t, .ofNat 1 z, .ofNat 2 d, .ofNat 1 p⟩
  | ts => .error (wrongCount ts.length 6)

/-- A line with no operand. -/
def parseNone (r : Request) : List (List Char) → Except AsmError Request
  | [] => .ok r
  | _ => .error .malformed

/-- A line whose only operand is `idx`. -/
def parseIdx (mk : Nat → Instr) : List (List Char) → Except AsmError Request
  | [v] => do let v ← parseBits 8 v; .ok (plainRequest (mk v))
  | ts => .error (wrongCount ts.length 1)

/-- One line's mnemonic and operand tokens to what the host presents (R73, R74). -/
def assembleTokens (c : Config) (mnemonic : String) (args : List (List Char)) : Except AsmError Request :=
  match mnemonic with
  | "ENCODE" => do let f ← parseGate args; .ok (gateRequest .encode f)
  | "DECODE" =>
    match args with
    | [w] => do let w ← namedBits "w" 64 w; .ok ⟨encode .decode, { Ports.idle with w := .ofNat 64 w }⟩
    | _ => .error (wrongCount args.length 1)
  | "INSTALL" =>
    match args with
    | [] => .error .missingOperand
    | v :: fs => do let v ← parseBits 8 v; let f ← parseGate fs; .ok (gateRequest (.install v) f)
  | "RDSLOT" => parseIdx .rdslot args
  | "INIT" => parseNone (plainRequest .init) args
  | "LOAD" => parseNone (plainRequest .load) args
  | "SETIE" =>
    match args with
    | [b] => do let b ← parseBits 1 b; .ok (plainRequest (.setie (b == 1)))
    | _ => .error (wrongCount args.length 1)
  | "REG" =>
    match args with
    | [i, h, t] => do
      let i ← parseBits 8 i
      let h ← namedBits "handler" 32 h
      let t ← namedBits "tag" c.tagW t
      .ok ⟨encode (.reg i), { Ports.idle with h := .ofNat 32 h, t := t }⟩
    | _ => .error (wrongCount args.length 3)
  | "DISP" =>
    match args with
    | [i, x] => do
      let i ← parseBits 8 i
      let x ← namedCtx x
      .ok ⟨encode (.disp i), { Ports.idle with c := x }⟩
    | _ => .error (wrongCount args.length 2)
  | "RET" => parseIdx .ret args
  | "DLV" => parseIdx .dlv args
  | "CLEAR" =>
    match args with
    | [v] => do let v ← parseBits 8 v; .ok (pseudoClear v)
    | _ => .error (wrongCount args.length 1)
  | "IGATE" =>
    match args with
    | [v, h] => do let v ← parseBits 8 v; let h ← parseBits 32 h; .ok (pseudoIgate c v (.ofNat 32 h))
    | _ => .error (wrongCount args.length 2)
  | "TGATE" =>
    match args with
    | [v, h, d] => do
      let v ← parseBits 8 v
      let h ← parseBits 32 h
      let d ← parseBits 2 d
      .ok (pseudoTgate c v (.ofNat 32 h) (.ofNat 2 d))
    | _ => .error (wrongCount args.length 3)
  | "EI" => parseNone pseudoEi args
  | "DI" => parseNone pseudoDi args
  | _ => .error .unknownMnemonic

/-- One command per line (R73); a line with no token gives none. -/
def assembleLine (c : Config) (line : String) : Except AsmError (Option Request) :=
  match tokensFrom [] line.toList with
  | [] => .ok none
  | m :: args => do let r ← assembleTokens c (String.ofList m) args; .ok (some r)

/-- The commands of several lines, in their order. -/
def assemble (c : Config) : List String → Except AsmError (List Request)
  | [] => .ok []
  | l :: ls => do
    let r ← assembleLine c l
    let rs ← assemble c ls
    .ok (r.toList ++ rs)

end Sys2Proof.Machine
end

