-- ==== Sys2Proof/Safety.lean ====
section
/-! DEFINITION. The terms claims are stated in: when a command can be performed, the invariants of a run
(10_state.md R31), runs and their end (70_reset_and_hazards.md R172), the execution context (60_exceptions.md
R144) and the access summary (10_state.md R33). -/

namespace Sys2Proof.Machine

/-- The block performs commands: its parameters meet R7 and no fault has occurred (R132). -/
def State.Ready (s : State) : Prop := configValid s.cfg = true ∧ s.fault = 0

/-- What holds in every state reachable from reset: R31 (a) to (e), and the form of the model's data. -/
structure State.Inv (s : State) : Prop where
  /-- The parameters meet R7. -/
  cfgValid      : configValid s.cfg = true
  /-- Memory is in canonical form. -/
  memWf         : s.mem.wf
  /-- Only the table's bytes are ever listed (R40). -/
  memInTable    : ∀ c ∈ s.mem, inTable s.cfg c.1 = true
  /-- The registry bank has N_IRQ entries (R27). -/
  regLength     : s.reg.length = s.cfg.nIrq
  /-- A tag is TAG_W bits wide (R27). -/
  tagFits       : ∀ e ∈ s.reg, e.tag < 2 ^ s.cfg.tagW
  /-- Codes 12 to 15 are never raised (R133). -/
  faultNamed    : s.fault.toNat ≤ 11
  /-- R31(a). -/
  enabledActive : s.ie = true → s.phase = .active
  /-- R31(b). -/
  validActive   : s.idtrValid = true ↔ s.phase = .active
  /-- R31(c). -/
  imageLimit    : s.idtrValid = true → s.idtr.limit.toNat = 8 * s.cfg.nSlots - 1
  /-- R31(c). -/
  imageBase     : s.idtrValid = true → s.idtr.base = s.cfg.tableBase
  /-- R31(d). -/
  serviceBound  : ∀ i ∈ s.inService, s.isBound i = true
  /-- R31(d). -/
  serviceNodup  : s.inService.Nodup
  /-- R31(e). -/
  reservedClear : ∀ v < s.cfg.nSlots, s.slot v &&& rsvdMask = 0

/-- `t` is `s` or comes from it by steps of the block. -/
inductive Reaches (s : State) : State → Prop where
  | refl : Reaches s s
  | step {t u : State} : Reaches s t → Sys2Proof.Machine.step t = .next u → Reaches s u

/-- `t` is reached from reset, under a configuration R7 allows, whatever commands the host issues (R6, R160). -/
def Reachable (t : State) : Prop := ∃ c reqs, configValid c = true ∧ Reaches (State.resetWith c reqs) t

/-- The run has ended well: no further command, no fault, every dispatched handler returned (R172). -/
def State.endsWell (s : State) : Bool := s.pending.isEmpty && s.fault == 0 && s.inService.isEmpty

/-- The two execution contexts (R144). -/
inductive Context where
  | normal
  | interrupt
  deriving DecidableEq, Repr

/-- "the context is interrupt exactly when `in_service` is nonempty and normal otherwise" (R144). -/
def State.context (s : State) : Context := if s.inService = [] then .normal else .interrupt

/-- The number by which phases only ever rise (R24, R94). -/
def phaseRank (p : Phase) : Nat := (phaseCode p).toNat

/-- The columns of the access summary (R33). -/
inductive Element where
  | table
  | phase
  | idtr
  | ie
  | reg
  | inService
  deriving DecidableEq, Repr

/-- The cells of R33's table marked w (the column `fault` apart, which every command writes on a fault). -/
def writes : Instr → Element → Bool
  | .encode, _          => false
  | .decode, _          => false
  | .install _, e       => e == .table
  | .rdslot _, _        => false
  | .init, e            => e == .table || e == .phase
  | .load, e            => e == .phase || e == .idtr
  | .setie _, e         => e == .ie
  | .reg _, e           => e == .reg
  | .disp _, e          => e == .inService
  | .ret _, e           => e == .inService
  | .dlv _, _           => false

/-- Two states hold the same in one column of R33's table. -/
def Element.same (s t : State) : Element → Prop
  | .table     => s.mem = t.mem
  | .phase     => s.phase = t.phase
  | .idtr      => s.idtr = t.idtr ∧ s.idtrValid = t.idtrValid
  | .ie        => s.ie = t.ie
  | .reg       => s.reg = t.reg
  | .inService => s.inService = t.inService

/-- Two states agree on the cells of R33's table marked r for this command (one slot of the table where the table
says "one slot"), and on the registry bank and the stack where they are marked. -/
def sameReads (s t : State) : Instr → Prop
  | .encode    => True
  | .decode    => True
  | .install _ => True
  | .rdslot v  => s.slot v = t.slot v
  | .init      => s.phase = t.phase ∧ s.ie = t.ie
  | .load      => s.phase = t.phase ∧ s.ie = t.ie
  | .setie _   => s.phase = t.phase
  | .reg _     => s.phase = t.phase ∧ s.reg = t.reg
  | .disp _    => s.reg = t.reg ∧ s.inService = t.inService
  | .ret _     => s.inService = t.inService
  | .dlv v     => s.slot v = t.slot v ∧ s.idtr = t.idtr ∧ s.idtrValid = t.idtrValid

/-- Two states hold the same in the cells of R33's table marked w for this command: INSTALL's one slot, every slot
of INIT's, the whole element otherwise. -/
def sameWrites (s t : State) : Instr → Prop
  | .encode    => True
  | .decode    => True
  | .install v => v < s.cfg.nSlots → s.slot v = t.slot v
  | .rdslot _  => True
  | .init      => s.fault = 0 → (∀ v < s.cfg.nSlots, s.slot v = t.slot v) ∧ s.phase = t.phase
  | .load      => s.fault = 0 → s.phase = t.phase ∧ s.idtr = t.idtr ∧ s.idtrValid = t.idtrValid
  | .setie _   => s.fault = 0 → s.ie = t.ie
  | .reg _     => s.reg = t.reg
  | .disp _    => s.inService = t.inService
  | .ret _     => s.inService = t.inService
  | .dlv _     => True

/-- Two states agree on the operand ports R62 lists for this command. -/
def samePorts (s t : State) : Instr → Prop
  | .encode    => s.ports.f = t.ports.f
  | .decode    => s.ports.w = t.ports.w
  | .install _ => s.ports.f = t.ports.f
  | .rdslot _  => True
  | .init      => True
  | .load      => True
  | .setie _   => True
  | .reg _     => s.ports.h = t.ports.h ∧ s.ports.t = t.ports.t
  | .disp _    => s.ports.c = t.ports.c
  | .ret _     => True
  | .dlv _     => True

/-- The forms of response R63 gives each command; `Fault(code)` is any command's. -/
def responseOf : Instr → Response → Prop
  | _, .fault _                => True
  | .encode, .word _           => True
  | .decode, .fields _ _       => True
  | .install _, .done          => True
  | .rdslot _, .word _         => True
  | .init, .done               => True
  | .load, .idtr _             => True
  | .setie _, .done            => True
  | .reg _, .status _          => True
  | .disp _, .call _ _ _       => True
  | .disp i, .drop j           => i = j
  | .ret _, .done              => True
  | .dlv _, .entry _ _ _ _     => True
  | _, _                       => False

end Sys2Proof.Machine
end

