-- ==== Sys2Proof/Certificates/Slice0/Obligations.lean ====
section
/-! DEFINITION. The statements for the provers, each from the numbered rules of the spec it names. They are about
every state (so about every configuration and every list of commands the host may still issue), not about a program. -/

open Sys2Proof Sys2Proof.Machine

/-! ### The gate word and the codec (30_encoding.md section 3, 40_codec.md) -/

/-- R68, R80: every field stands at its position, every unused and reserved bit is 0, and the two halves of the
offset put together are the offset. -/
def Obligations.EncodedGatePlacesEveryField : Prop :=
  ∀ f : GateFields,
    (encodeGate f).extractLsb' 0 16 = f.off.extractLsb' 0 16 ∧
    (encodeGate f).extractLsb' 16 16 = f.sel ∧
    (encodeGate f).extractLsb' 32 5 = 0 ∧
    (encodeGate f).extractLsb' 37 3 = 0 ∧
    (encodeGate f).extractLsb' 40 3 = f.type ∧
    (encodeGate f).extractLsb' 43 1 = f.size ∧
    (encodeGate f).extractLsb' 44 1 = 0 ∧
    (encodeGate f).extractLsb' 45 2 = f.dpl ∧
    (encodeGate f).extractLsb' 47 1 = f.p ∧
    (encodeGate f).extractLsb' 48 16 = f.off.extractLsb' 16 16 ∧
    (encodeGate f).extractLsb' 48 16 ++ (encodeGate f).extractLsb' 0 16 = f.off

/-- R69: which bits the mask holds, its complement, and that no encoded word has one of them set. -/
def Obligations.ReservedBitsAreNeverEncoded : Prop :=
  (∀ k < 64, rsvdMask.getLsbD k = (decide (32 ≤ k ∧ k ≤ 39) || decide (k = 44))) ∧
  ~~~rsvdMask = 0xFFFFEF00FFFFFFFF ∧
  ∀ f : GateFields, encodeGate f &&& rsvdMask = 0

/-- Byte 5 of an encoded gate and its five values 30_encoding.md section 3 lists, and byte 5 of a kernel gate: the
spec's own inferences ("[derived: from rule R68]" in R71 and "[derived: from `30_encoding.md` rule R71]" in R92). -/
def Obligations.ByteFiveOfAGate : Prop :=
  (∀ f : GateFields, wordByte (encodeGate f) 5 =
    (f.p.setWidth 8 <<< 7 ||| f.dpl.setWidth 8 <<< 5 ||| f.size.setWidth 8 <<< 3 ||| f.type.setWidth 8)) ∧
  ∀ (off : Addr) (sel : BitVec 16),
    wordByte (encodeGate ⟨off, sel, 6, 1, 0, 1⟩) 5 = 0x8E ∧
    wordByte (encodeGate ⟨off, sel, 7, 1, 0, 1⟩) 5 = 0x8F ∧
    wordByte (encodeGate ⟨off, sel, 6, 1, 3, 1⟩) 5 = 0xEE ∧
    wordByte (encodeGate ⟨off, sel, 7, 1, 3, 1⟩) 5 = 0xEF ∧
    wordByte 0 5 = 0x00 ∧
    ∀ (c : Config) (v : Nat) (stub : Addr), stubOf c v = some stub →
      wordByte (initWord c v) 5 = 0x8E#8 ||| c.kernelDpl.setWidth 8 <<< 5

/-- The five laws of 40_codec.md section 3: round trip, no reserved bit, re-encoding, bijection, and what decoding
loses. The spec marks (c) to (e) of R84 as derived. -/
def Obligations.GateCodecLaws : Prop :=
  (∀ f : GateFields, decodeGate (encodeGate f) = (f, false)) ∧
  (∀ f : GateFields, encodeGate f &&& rsvdMask = 0) ∧
  (∀ w : DescWord, encodeGate (decodeGate w).1 = w &&& ~~~rsvdMask) ∧
  (Function.Injective encodeGate ∧ ∀ w : DescWord, w &&& rsvdMask = 0 → ∃ f, encodeGate f = w) ∧
  (¬ Function.Injective decodeGate ∧
    ∀ w w' : DescWord, w &&& ~~~rsvdMask = w' &&& ~~~rsvdMask →
      (decodeGate w).1 = (decodeGate w').1 ∧
      ((decodeGate w).2 ≠ (decodeGate w').2 ↔ ¬ (w &&& rsvdMask = 0 ↔ w' &&& rsvdMask = 0)))

/-- The spec's inference R87 ("[derived: from rule R80 and rule R81]"): a field affects only its own bits of the
word, and bits of one field's place (or reserved bits) affect only that field (or none). -/
def Obligations.GateFieldsAreIndependent : Prop :=
  (∀ (f : GateFields) (x : Addr), (encodeGate { f with off := x } ^^^ encodeGate f) &&& ~~~0xFFFF00000000FFFF = 0) ∧
  (∀ (f : GateFields) (x : BitVec 16), (encodeGate { f with sel := x } ^^^ encodeGate f) &&& ~~~0x00000000FFFF0000 = 0) ∧
  (∀ (f : GateFields) (x : BitVec 3), (encodeGate { f with type := x } ^^^ encodeGate f) &&& ~~~0x0000070000000000 = 0) ∧
  (∀ (f : GateFields) (x : BitVec 1), (encodeGate { f with size := x } ^^^ encodeGate f) &&& ~~~0x0000080000000000 = 0) ∧
  (∀ (f : GateFields) (x : BitVec 2), (encodeGate { f with dpl := x } ^^^ encodeGate f) &&& ~~~0x0000600000000000 = 0) ∧
  (∀ (f : GateFields) (x : BitVec 1), (encodeGate { f with p := x } ^^^ encodeGate f) &&& ~~~0x0000800000000000 = 0) ∧
  ∀ w m : DescWord,
    (m &&& ~~~0xFFFF00000000FFFF = 0 → ∃ x, gateFields (w ^^^ m) = { gateFields w with off := x }) ∧
    (m &&& ~~~0x00000000FFFF0000 = 0 → ∃ x, gateFields (w ^^^ m) = { gateFields w with sel := x }) ∧
    (m &&& ~~~0x0000070000000000 = 0 → ∃ x, gateFields (w ^^^ m) = { gateFields w with type := x }) ∧
    (m &&& ~~~0x0000080000000000 = 0 → ∃ x, gateFields (w ^^^ m) = { gateFields w with size := x }) ∧
    (m &&& ~~~0x0000600000000000 = 0 → ∃ x, gateFields (w ^^^ m) = { gateFields w with dpl := x }) ∧
    (m &&& ~~~0x0000800000000000 = 0 → ∃ x, gateFields (w ^^^ m) = { gateFields w with p := x }) ∧
    (m &&& ~~~rsvdMask = 0 → gateFields (w ^^^ m) = gateFields w)

/-- R82: ENCODE's word, its response, that it leaves every state element alone, and the two corner words. -/
def Obligations.EncodeRespondsWithTheWord : Prop :=
  (∀ cw, decode cw = .ok .encode ↔ cw = 0x00000001) ∧
  (∀ s : State, s.Ready →
    exec .encode s = .next { s with resp := some (.word (encodeGate s.ports.f)) }) ∧
  encodeGate ⟨0, 0, 0, 0, 0, 0⟩ = 0 ∧
  encodeGate ⟨0xFFFFFFFF, 0xFFFF, 7, 1, 3, 1⟩ = 0xFFFFEF00FFFFFFFF

/-- R83: DECODE's word, its response with every field and the reserved-bits flag, that it leaves every state element
alone, and that reserved bits change no field. -/
def Obligations.DecodeRespondsWithTheFields : Prop :=
  (∀ cw, decode cw = .ok .decode ↔ cw = 0x00000002) ∧
  (∀ s : State, s.Ready → ∃ (f : GateFields) (nz : Bool),
    exec .decode s = .next { s with resp := some (.fields f nz) } ∧
    f.off = s.ports.w.extractLsb' 48 16 ++ s.ports.w.extractLsb' 0 16 ∧
    f.sel = s.ports.w.extractLsb' 16 16 ∧
    f.type = s.ports.w.extractLsb' 40 3 ∧
    f.size = s.ports.w.extractLsb' 43 1 ∧
    f.dpl = s.ports.w.extractLsb' 45 2 ∧
    f.p = s.ports.w.extractLsb' 47 1 ∧
    (nz = true ↔ s.ports.w &&& 0x000010FF00000000 ≠ 0) ∧
    f = (decodeGate (s.ports.w &&& ~~~0x000010FF00000000)).1) ∧
  decodeGate 0xFFFFFFFFFFFFFFFF = (⟨0xFFFFFFFF, 0xFFFF, 7, 1, 3, 1⟩, true) ∧
  decodeGate 0x0000800000000000 = (⟨0, 0, 0, 0, 0, 1⟩, false)

/-! ### Command words (30_encoding.md sections 1 and 2) -/

/-- Decoding the word the encoder gives a well-formed command gives the command back, at every value of every field:
no bit of an encoding is dropped (30_encoding.md R61, R64). -/
def Obligations.EncodedCommandsDecodeBack : Prop :=
  ∀ i : Instr, i.wellFormed = true → decode (encode i) = .ok i

/-- A word that decodes is the encoding of the command it decodes to, and that command is well formed. -/
def Obligations.DecodedWordsAreTheirEncodings : Prop :=
  ∀ (cw : CmdWord) (i : Instr), decode cw = .ok i → i.wellFormed = true ∧ encode i = cw

/-- R64: each row's mask and match, with the field the row carries. -/
def Obligations.EveryRowDecodesAsPrinted : Prop :=
  ∀ cw : CmdWord,
    (decode cw = .ok .encode ↔ cw &&& 0xFFFFFFFF = 0x00000001) ∧
    (decode cw = .ok .decode ↔ cw &&& 0xFFFFFFFF = 0x00000002) ∧
    (∀ v, decode cw = .ok (.install v) ↔ cw &&& 0xFFFFF00F = 0x00000003 ∧ v = (cw.extractLsb' 4 8).toNat) ∧
    (∀ v, decode cw = .ok (.rdslot v) ↔ cw &&& 0xFFFFF00F = 0x00000004 ∧ v = (cw.extractLsb' 4 8).toNat) ∧
    (decode cw = .ok .init ↔ cw &&& 0xFFFFFFFF = 0x00000005) ∧
    (decode cw = .ok .load ↔ cw &&& 0xFFFFFFFF = 0x00000006) ∧
    (∀ b, decode cw = .ok (.setie b) ↔ cw &&& 0xFFFFEFFF = 0x00000007 ∧ b = cw.getLsbD 12) ∧
    (∀ i, decode cw = .ok (.reg i) ↔ cw &&& 0xFFFFF00F = 0x00000008 ∧ i = (cw.extractLsb' 4 8).toNat) ∧
    (∀ i, decode cw = .ok (.disp i) ↔ cw &&& 0xFFFFF00F = 0x00000009 ∧ i = (cw.extractLsb' 4 8).toNat) ∧
    (∀ i, decode cw = .ok (.ret i) ↔ cw &&& 0xFFFFF00F = 0x0000000A ∧ i = (cw.extractLsb' 4 8).toNat) ∧
    (∀ v, decode cw = .ok (.dlv v) ↔ cw &&& 0xFFFFF00F = 0x0000000B ∧ v = (cw.extractLsb' 4 8).toNat)

/-- R65: exactly the listed words are illegal, and performing one raises IllegalCommand whatever the state of the
block and the operands. -/
def Obligations.IllegalWordsRaiseIllegalCommand : Prop :=
  (∀ cw : CmdWord, (∃ e, decode cw = .error e) ↔
    opField cw = 0x0 ∨ 0xC ≤ opField cw ∨ rsvdField cw ≠ 0 ∨ (bField cw = true ∧ opField cw ≠ 0x7) ∨
      (idxField cw ≠ 0 ∧ opField cw ∈ [0x1, 0x2, 0x5, 0x6, 0x7])) ∧
  ∀ (s : State) (r : Request) (rest : List Request) (e : IllegalWord), s.Ready → s.pending = r :: rest →
    decode r.cw = .error e →
    step s = .next { s with pending := rest, ports := r.ports, fault := 1, resp := some (.fault 1) }

/-- The spec's inference R66 ("[derived: from rule R64 and rule R65]"): no word selects two rows, and every word
selects a row or is illegal. -/
def Obligations.OpcodeRowsAreDisjoint : Prop :=
  ∀ cw : CmdWord,
    opcodeMap.Pairwise (fun r r' => ¬ (r.selects cw = true ∧ r'.selects cw = true)) ∧
    ((∃ r ∈ opcodeMap, r.selects cw = true) ↔ ∃ i, decode cw = .ok i) ∧
    ((∃ i, decode cw = .ok i) ∨ ∃ e, decode cw = .error e)

/-- Words written out from the patterns of R64 and the vectors of 95_test_vectors.md section 2.6. -/
def Obligations.SpecWordsDecode : Prop :=
  decode 0b00000000000000000000000000000001 = .ok .encode ∧
  decode 0b00000000000000000000000000000010 = .ok .decode ∧
  decode 0b00000000000000000000000000100011 = .ok (.install 2) ∧
  decode 0b00000000000000000001000000000111 = .ok (.setie true) ∧
  decode 0x00000FF9 = .ok (.disp 255) ∧
  decode 0x0000021B = .ok (.dlv 33) ∧
  decode 0x00001003 = .error .strayEnable ∧
  decode 0x80000009 = .error .reservedBits

/-! ### Steps -/

/-- A step performs the decoded command: the host's next command word, with its operands on the ports, is `exec` of
the command it decodes to; nothing else moves (R6, R60). -/
def Obligations.StepPerformsTheDecodedCommand : Prop :=
  ∀ (s : State) (r : Request) (rest : List Request) (i : Instr), s.pending = r :: rest → decode r.cw = .ok i →
    step s = exec i { s with pending := rest, ports := r.ports }

/-- With no command issued the block waits without changing its state, faulted or not (R151). That a waiting step
shows no response is the model's choice (log entry 6). -/
def Obligations.BlockWaitsForACommand : Prop :=
  ∀ s : State, s.pending = [] → step s = .next { s with resp := none }

/-- R132: a step of a block with no fault that leaves a fault wrote the code and nothing else of the block, and responds
it; from then on no command has a step, no step clears the code, and the run has not ended well. That a command with
no step ends in the outcome `.fault .blockFaulted` is the model's reading (DEDUCED, log entry 12): R132 says only
"every later command has no step". -/
def Obligations.FaultStopsTheBlock : Prop :=
  ∀ s t : State, s.Ready → step s = .next t → t.fault ≠ 0 →
    (∃ r rest, s.pending = r :: rest ∧
      t = { s with pending := rest, ports := r.ports, fault := t.fault, resp := some (.fault t.fault) }) ∧
    (t.pending ≠ [] → step t = .fault .blockFaulted) ∧
    (∀ i, exec i t = .fault .blockFaulted) ∧
    (∀ u, step t = .next u → u.fault = t.fault) ∧
    t.endsWell = false

/-- R133: each code, its cause and the commands that raise it; 12 to 15 are never raised. -/
def Obligations.FaultCodesHaveTheirCauses : Prop :=
  (∀ (s t : State) (i : Instr), s.Ready → exec i s = .next t →
    t.fault ≠ 1 ∧
    (t.fault = 2 ↔ ∃ v, (i = .install v ∨ i = .rdslot v) ∧ s.cfg.nSlots ≤ v) ∧
    (t.fault = 3 ↔ i = .init ∧ s.ie = true) ∧
    (t.fault = 4 ↔ i = .load ∧ s.phase = .uninitialized) ∧
    (t.fault = 5 ↔ i = .load ∧ s.phase ≠ .uninitialized ∧ s.ie = true) ∧
    (t.fault = 6 ↔ i = .setie true ∧ s.phase ≠ .active) ∧
    (t.fault = 7 ↔ (∃ n, i = .reg n) ∧ s.phase = .uninitialized) ∧
    (t.fault = 8 ↔ ∃ n, i = .disp n ∧ n ∈ s.inService) ∧
    (t.fault = 9 ↔ ∃ n, i = .ret n ∧ s.inService.getLast? ≠ some n) ∧
    (t.fault = 10 ↔ ∃ v, i = .dlv v ∧ (s.idtrValid = false ∨ s.idtr.limit.toNat < 8 * v + 7 ∨
      (decodeGate (s.slot v)).1.p = 0)) ∧
    (t.fault = 11 ↔ ∃ v, i = .dlv v ∧ s.idtrValid = true ∧ 8 * v + 7 ≤ s.idtr.limit.toNat ∧
      (decodeGate (s.slot v)).1.p = 1 ∧ ((decodeGate (s.slot v)).2 = true ∨
        ((decodeGate (s.slot v)).1.type ≠ 6 ∧ (decodeGate (s.slot v)).1.type ≠ 7) ∨
        (decodeGate (s.slot v)).1.size = 0)) ∧
    t.fault.toNat ≤ 11) ∧
  ∀ (s t : State) (r : Request) (rest : List Request), s.Ready → s.pending = r :: rest → step s = .next t →
    (t.fault = 1 ↔ ∃ e, decode r.cw = .error e)

/-- R134: which fault is reported when several apply: an illegal word before the command's own checks, LOAD's two in
their order, DLV's three UndefinedDelivery tests before UnmodelledGate; of a faulted block, nothing. That a faulted
block's outcome is `.fault .blockFaulted` is the model's reading (DEDUCED, log entry 12): R134 says only "no step,
nothing reported". -/
def Obligations.FirstFaultWins : Prop :=
  (∀ s : State, configValid s.cfg = true → s.fault ≠ 0 → s.pending ≠ [] → step s = .fault .blockFaulted) ∧
  (∀ (s t : State) (r : Request) (rest : List Request) (e : IllegalWord), s.Ready → s.pending = r :: rest →
    decode r.cw = .error e → step s = .next t → t.resp = some (.fault 1)) ∧
  (∀ s t : State, s.Ready → s.phase = .uninitialized → s.ie = true → exec .load s = .next t →
    t.resp = some (.fault 4)) ∧
  ∀ (s t : State) (v : Nat), s.Ready → gateModelled (s.slot v) = false → exec (.dlv v) s = .next t →
    t.resp = some (.fault (if s.idtrValid = true ∧ 8 * v + 7 ≤ s.idtr.limit.toNat ∧
      (decodeGate (s.slot v)).1.p = 1 then 11 else 10))

/-! ### The Table Manager (41_table_manager.md) -/

/-- R41: the byte image of the table, read byte by byte and as a little-endian 64-bit value. -/
def Obligations.TableByteImage : Prop :=
  ∀ (s : State) (v : Nat), v < s.cfg.nSlots →
    (∀ k < 8, s.imageByte (s.cfg.tableBase.toNat + 8 * v + k) = some ((s.slot v).extractLsb' (8 * k) 8)) ∧
    leNat (s.mem.getBytes (s.cfg.tableBase.toNat + 8 * v) 8) = (s.slot v).toNat ∧
    s.imageByte (s.cfg.tableBase.toNat + 8 * v) = some ((gateFields (s.slot v)).off.extractLsb' 0 8) ∧
    s.imageByte (s.cfg.tableBase.toNat + 8 * v + 5) = some ((s.slot v).extractLsb' 40 8)

/-- R90: INSTALL's word; inside the table it writes the encoded gate to the slot whose bytes start at `slotAddr
s.cfg v` and every other byte and every other element stays; beyond the table it faults. -/
def Obligations.InstallWritesOneSlot : Prop :=
  (∀ cw v, decode cw = .ok (.install v) ↔ cw &&& 0xFFFFF00F = 0x00000003 ∧ v = (cw.extractLsb' 4 8).toNat) ∧
  (∀ (s : State) (v : Nat), s.Ready → s.mem.wf → v < s.cfg.nSlots →
    ∃ t, exec (.install v) s = .next t ∧
      t.slot v = encodeGate s.ports.f ∧ t.slot v &&& rsvdMask = 0 ∧
      (∀ u, u ≠ v → t.slot u = s.slot u) ∧
      (∀ a, slotAddr s.cfg v = a → ∀ x, (x < a ∨ a + 8 ≤ x) → t.mem.get x = s.mem.get x) ∧
      t = { s with mem := t.mem, resp := some .done }) ∧
  ∀ (s : State) (v : Nat), s.Ready → s.cfg.nSlots ≤ v →
    exec (.install v) s = .next { s with fault := 2, resp := some (.fault 2) }

/-- R91: RDSLOT's word, its response inside the table, its fault beyond it, and that at reset every slot reads 0. -/
def Obligations.RdslotReturnsTheSlot : Prop :=
  (∀ cw v, decode cw = .ok (.rdslot v) ↔ cw &&& 0xFFFFF00F = 0x00000004 ∧ v = (cw.extractLsb' 4 8).toNat) ∧
  (∀ (s : State) (v : Nat), s.Ready → v < s.cfg.nSlots →
    exec (.rdslot v) s = .next { s with resp := some (.word (s.slot v)) }) ∧
  (∀ (s : State) (v : Nat), s.Ready → s.cfg.nSlots ≤ v →
    exec (.rdslot v) s = .next { s with fault := 2, resp := some (.fault 2) }) ∧
  ∀ (c : Config) (reqs : List Request) (v : Nat), (State.resetWith c reqs).slot v = 0

/-- R92: the kernel gate of a serviced vector. -/
def Obligations.KernelGateOfAServicedVector : Prop :=
  ∀ (c : Config) (v : Nat) (stub : Addr), stubOf c v = some stub →
    initWord c v = encodeGate { off := stub, sel := c.kernelCs, type := 6, size := 1, dpl := c.kernelDpl, p := 1 }

/-- R93, R94: INIT's word; with `ie` = 0 it writes every slot of the table, kernel gates to serviced vectors and 0
to all others, moves the phase, and leaves every byte outside the table and every other element alone; with `ie` = 1
it faults. -/
def Obligations.InitPopulatesTheTable : Prop :=
  (∀ cw, decode cw = .ok .init ↔ cw = 0x00000005) ∧
  (∀ s : State, s.Ready → s.mem.wf → s.ie = false →
    ∃ t, exec .init s = .next t ∧
      (∀ v < s.cfg.nSlots, t.slot v = match stubOf s.cfg v with
        | some stub => encodeGate ⟨stub, s.cfg.kernelCs, 6, 1, s.cfg.kernelDpl, 1⟩
        | none => 0) ∧
      (∀ a, inTable s.cfg a = false → t.mem.get a = s.mem.get a) ∧
      t.phase = (if s.phase = .active then .active else .built) ∧
      t = { s with mem := t.mem, phase := t.phase, resp := some .done }) ∧
  ∀ s : State, s.Ready → s.ie = true → exec .init s = .next { s with fault := 3, resp := some (.fault 3) }

/-- The spec's inference R98 ("[derived: from rule R92 and rule R93]"): right after an INIT a slot of the table is
present exactly when its vector is serviced. -/
def Obligations.PresentExactlyWhenServiced : Prop :=
  ∀ s t : State, s.mem.wf → s.ie = false → exec .init s = .next t →
    ∀ v < s.cfg.nSlots, (decodeGate (t.slot v)).1.p = 1 ↔ ∃ stub, (v, stub) ∈ s.cfg.serviced

/-- R95: LOAD's word; it installs limit and base, sets `idtr_valid` and phase Active, responds the image and leaves
every other element alone; before INIT, and else with `ie` = 1, it faults. -/
def Obligations.LoadInstallsTheTableRegister : Prop :=
  (∀ cw, decode cw = .ok .load ↔ cw = 0x00000006) ∧
  (∀ s : State, s.Ready → s.phase ≠ .uninitialized → s.ie = false →
    ∃ (limit : BitVec 16),
      exec .load s = .next { s with
        idtr := ⟨limit, s.cfg.tableBase⟩, idtrValid := true, phase := .active,
        resp := some (.idtr (s.cfg.tableBase ++ limit)) } ∧
      limit.toNat = (8 * s.cfg.nSlots - 1) % 2 ^ 16) ∧
  (∀ s : State, s.Ready → s.phase = .uninitialized →
    exec .load s = .next { s with fault := 4, resp := some (.fault 4) }) ∧
  ∀ s : State, s.Ready → s.phase ≠ .uninitialized → s.ie = true →
    exec .load s = .next { s with fault := 5, resp := some (.fault 5) }

/-- The spec's inferences "the reduction mod 2^16 never changes it" (R96, "[derived: from `00_scope.md` rule R7]")
and "the limit test is `v >= N_SLOTS`" (R120, "[derived: from `10_state.md` rule R31(c)]"). -/
def Obligations.LimitCoversTheTable : Prop :=
  (∀ c : Config, configValid c = true →
    (tableLimit c).toNat = 8 * c.nSlots - 1 ∧ 7 ≤ (tableLimit c).toNat ∧ (tableLimit c).toNat ≤ 2047) ∧
  ∀ (s : State) (v : Nat), s.Inv → s.idtrValid = true → (8 * v + 7 > s.idtr.limit.toNat ↔ v ≥ s.cfg.nSlots)

/-- R42, R72: the 48-bit image is limit then base, and its six bytes are the limit's two and the base's four, each
least significant first. -/
def Obligations.TableRegisterImage : Prop :=
  ∀ r : Idtr,
    r.image.extractLsb' 0 16 = r.limit ∧ r.image.extractLsb' 16 32 = r.base ∧
    imageBytes r.image = [r.limit.extractLsb' 0 8, r.limit.extractLsb' 8 8, r.base.extractLsb' 0 8,
      r.base.extractLsb' 8 8, r.base.extractLsb' 16 8, r.base.extractLsb' 24 8] ∧
    ∀ k < 6, (imageBytes r.image)[k]? = some (r.image.extractLsb' (8 * k) 8)

/-- The spec's inference R97 ("[derived: from rules R93, R94, R95 and `43_cpu_interface.md` rule R125]"): the state
machine that INIT, LOAD and SETIE drive: phase and `ie` after each of them in each row of the table, or the fault. -/
def Obligations.BootStateMachine : Prop :=
  ∀ s : State, s.Ready →
    (s.phase = .uninitialized → s.ie = false →
      (∃ t, exec .init s = .next t ∧ t.fault = 0 ∧ t.phase = .built ∧ t.ie = false) ∧
      (∃ t, exec .load s = .next t ∧ t.resp = some (.fault 4)) ∧
      (∃ t, exec (.setie true) s = .next t ∧ t.resp = some (.fault 6)) ∧
      (∃ t, exec (.setie false) s = .next t ∧ t.fault = 0 ∧ t.phase = .uninitialized ∧ t.ie = false)) ∧
    (s.phase = .built → s.ie = false →
      (∃ t, exec .init s = .next t ∧ t.fault = 0 ∧ t.phase = .built ∧ t.ie = false) ∧
      (∃ t, exec .load s = .next t ∧ t.fault = 0 ∧ t.phase = .active ∧ t.ie = false) ∧
      (∃ t, exec (.setie true) s = .next t ∧ t.resp = some (.fault 6)) ∧
      (∃ t, exec (.setie false) s = .next t ∧ t.fault = 0 ∧ t.phase = .built ∧ t.ie = false)) ∧
    (s.phase = .active → s.ie = false →
      (∃ t, exec .init s = .next t ∧ t.fault = 0 ∧ t.phase = .active ∧ t.ie = false) ∧
      (∃ t, exec .load s = .next t ∧ t.fault = 0 ∧ t.phase = .active ∧ t.ie = false) ∧
      (∃ t, exec (.setie true) s = .next t ∧ t.fault = 0 ∧ t.phase = .active ∧ t.ie = true) ∧
      (∃ t, exec (.setie false) s = .next t ∧ t.fault = 0 ∧ t.phase = .active ∧ t.ie = false)) ∧
    (s.phase = .active → s.ie = true →
      (∃ t, exec .init s = .next t ∧ t.resp = some (.fault 3)) ∧
      (∃ t, exec .load s = .next t ∧ t.resp = some (.fault 5)) ∧
      (∃ t, exec (.setie true) s = .next t ∧ t.fault = 0 ∧ t.phase = .active ∧ t.ie = true) ∧
      (∃ t, exec (.setie false) s = .next t ∧ t.fault = 0 ∧ t.phase = .active ∧ t.ie = false)) ∧
    (Reachable s → s.phase ≠ .active → s.ie = false)

/-! ### The Dispatch Registry (42_dispatch_registry.md) -/

/-- R106: REG's word; it faults before any INIT; a free identifier of the serviced range is bound to the handler and
the tag (a tag of TAG_W bits, R62), every other entry and every other element staying; an identifier outside the
range and a bound one are refused by status, nothing written. -/
def Obligations.RegBindsAFreeIdentifier : Prop :=
  (∀ cw i, decode cw = .ok (.reg i) ↔ cw &&& 0xFFFFF00F = 0x00000008 ∧ i = (cw.extractLsb' 4 8).toNat) ∧
  (∀ (s : State) (i : Nat), s.Ready → s.phase = .uninitialized →
    exec (.reg i) s = .next { s with fault := 7, resp := some (.fault 7) }) ∧
  (∀ (s : State) (i : Nat), s.Ready → s.phase ≠ .uninitialized → ¬ (s.cfg.irqBase ≤ i ∧ i < s.cfg.irqBase + s.cfg.nIrq) →
    exec (.reg i) s = .next { s with resp := some (.status .invalidVector) }) ∧
  (∀ (s : State) (i : Nat), s.Ready → s.phase ≠ .uninitialized → s.cfg.irqBase ≤ i → i < s.cfg.irqBase + s.cfg.nIrq →
    (s.regAt i).bound = true → exec (.reg i) s = .next { s with resp := some (.status .alreadyBound) }) ∧
  ∀ (s : State) (i : Nat), s.Ready → s.phase ≠ .uninitialized → s.cfg.irqBase ≤ i → i < s.cfg.irqBase + s.cfg.nIrq →
    s.reg.length = s.cfg.nIrq → s.ports.t < 2 ^ s.cfg.tagW → (s.regAt i).bound = false →
    ∃ t, exec (.reg i) s = .next t ∧
      t.regAt i = { bound := true, handler := s.ports.h, tag := s.ports.t } ∧
      (∀ j, s.cfg.irqBase ≤ j → j ≠ i → t.regAt j = s.regAt j) ∧
      t = { s with reg := t.reg, resp := some (.status .ok) }

/-- R107: no step clears a bound entry or changes its handler or its tag. -/
def Obligations.BoundEntriesAreNeverRemoved : Prop :=
  ∀ (s t : State) (i : Nat), s.isBound i = true → step s = .next t →
    t.isBound i = true ∧ (t.regAt i).handler = (s.regAt i).handler ∧ (t.regAt i).tag = (s.regAt i).tag

/-- The spec's inference R112 ("[derived: from rule R106 and rule R107]"): however the run goes on from a state
where an identifier is bound, it stays bound to that handler and tag, and every Call a DISP of it responds carries
them. -/
def Obligations.OneHandlerPerIdentifier : Prop :=
  ∀ (s t : State) (i : Nat), Reaches s t → s.isBound i = true →
    t.regAt i = s.regAt i ∧
    ∀ (u : State) (h : Addr) (g : Tag) (c : Ctx), exec (.disp i) t = .next u → u.resp = some (.call h g c) →
      h = (s.regAt i).handler ∧ g = (s.regAt i).tag

/-- The spec's inference R110 ("[derived: from rule R106 and rule R108]"): of two REGs of one free identifier the
first succeeds, the second fails with AlreadyBound, and a DISP after them calls the first handler. -/
def Obligations.SecondRegistrationIsRejected : Prop :=
  ∀ (s : State) (i : Nat) (second disp : Ports), s.Ready → s.phase ≠ .uninitialized → validIrq s.cfg i = true →
    s.reg.length = s.cfg.nIrq → s.ports.t < 2 ^ s.cfg.tagW → (s.regAt i).bound = false → i ∉ s.inService →
    ∃ t u w, exec (.reg i) s = .next t ∧ t.resp = some (.status .ok) ∧
      exec (.reg i) { t with ports := second } = .next u ∧ u.resp = some (.status .alreadyBound) ∧
      exec (.disp i) { u with ports := disp } = .next w ∧ w.resp = some (.call s.ports.h s.ports.t disp.c)

/-- R108, R109: DISP's word; it faults on an identifier in service; of a bound one it pushes the identifier and
responds the call; of an unbound one or one outside the range it responds Drop and changes no state. -/
def Obligations.DispCallsOrDrops : Prop :=
  (∀ cw i, decode cw = .ok (.disp i) ↔ cw &&& 0xFFFFF00F = 0x00000009 ∧ i = (cw.extractLsb' 4 8).toNat) ∧
  (∀ (s : State) (i : Nat), s.Ready → i ∈ s.inService →
    exec (.disp i) s = .next { s with fault := 8, resp := some (.fault 8) }) ∧
  (∀ (s : State) (i : Nat), s.Ready → i ∉ s.inService → validIrq s.cfg i = true → (s.regAt i).bound = true →
    exec (.disp i) s = .next { s with
      inService := s.inService ++ [i]
      resp := some (.call (s.regAt i).handler (s.regAt i).tag s.ports.c) }) ∧
  ∀ (s : State) (i : Nat), s.Ready → i ∉ s.inService → (validIrq s.cfg i = false ∨ (s.regAt i).bound = false) →
    exec (.disp i) s = .next { s with resp := some (.drop i) }

/-- R111: RET's word; of the innermost identifier in service it pops it and changes nothing else; of any other, and
with nothing in service, it faults. -/
def Obligations.RetPopsTheInnermost : Prop :=
  (∀ cw i, decode cw = .ok (.ret i) ↔ cw &&& 0xFFFFF00F = 0x0000000A ∧ i = (cw.extractLsb' 4 8).toNat) ∧
  (∀ (s : State) (outer : List Nat) (i : Nat), s.Ready → s.inService = outer ++ [i] →
    exec (.ret i) s = .next { s with inService := outer, resp := some .done }) ∧
  ∀ (s : State) (i : Nat), s.Ready → (s.inService = [] ∨ ∃ outer j, s.inService = outer ++ [j] ∧ j ≠ i) →
    exec (.ret i) s = .next { s with fault := 9, resp := some (.fault 9) }

/-! ### The processor interface (43_cpu_interface.md) -/

/-- R120: DLV's word; through an installed table, within the limit, a present gate of type 6 or 7, size 1, no
reserved bit, it responds the entry and changes nothing; every other case faults with code 10 or 11. -/
def Obligations.DlvDeliversThroughTheTable : Prop :=
  (∀ cw v, decode cw = .ok (.dlv v) ↔ cw &&& 0xFFFFF00F = 0x0000000B ∧ v = (cw.extractLsb' 4 8).toNat) ∧
  (∀ (s : State) (v : Nat), s.Ready →
    (s.idtrValid = false ∨ 8 * v + 7 > s.idtr.limit.toNat ∨ (decodeGate (s.slot v)).1.p = 0) →
    exec (.dlv v) s = .next { s with fault := 10, resp := some (.fault 10) }) ∧
  (∀ (s : State) (v : Nat) (f : GateFields) (nz : Bool), s.Ready → s.idtrValid = true →
    8 * v + 7 ≤ s.idtr.limit.toNat → decodeGate (s.slot v) = (f, nz) → f.p = 1 →
    (nz = true ∨ (f.type ≠ 6 ∧ f.type ≠ 7) ∨ f.size = 0) →
    exec (.dlv v) s = .next { s with fault := 11, resp := some (.fault 11) }) ∧
  ∀ (s : State) (v : Nat) (f : GateFields), s.Ready → s.idtrValid = true →
    8 * v + 7 ≤ s.idtr.limit.toNat → decodeGate (s.slot v) = (f, false) → f.p = 1 →
    (f.type = 6 ∨ f.type = 7) → f.size = 1 →
    exec (.dlv v) s = .next { s with resp := some (.entry f.off f.sel f.type f.dpl) }

/-- The spec's inference in R122 ("[derived: from `41_table_manager.md` rule R92]"): after an INIT and a LOAD,
delivery of a serviced vector enters its stub, in the kernel code segment, through an interrupt gate of the kernel's
privilege level. -/
def Obligations.ServicedVectorEntersItsStub : Prop :=
  ∀ (s : State) (v : Nat) (stub : Addr), s.Ready → s.mem.wf → s.ie = false → v < s.cfg.nSlots →
    stubOf s.cfg v = some stub →
    ∃ t u, exec .init s = .next t ∧ exec .load t = .next u ∧
      exec (.dlv v) u = .next { u with resp := some (.entry stub s.cfg.kernelCs 6 s.cfg.kernelDpl) }

/-- R54: a delivery right after an INSTALL sees the gate just written, with no LOAD between them. -/
def Obligations.DeliverySeesTheInstalledGate : Prop :=
  ∀ (s : State) (v : Nat), s.Ready → s.mem.wf → v < s.cfg.nSlots → s.idtrValid = true →
    8 * v + 7 ≤ s.idtr.limit.toNat → s.ports.f.p = 1 → (s.ports.f.type = 6 ∨ s.ports.f.type = 7) →
    s.ports.f.size = 1 →
    ∃ t, exec (.install v) s = .next t ∧
      exec (.dlv v) t = .next { t with
        resp := some (.entry s.ports.f.off s.ports.f.sel s.ports.f.type s.ports.f.dpl) }

/-- R125: SETIE's word; it writes `ie` and nothing else, but enabling before phase Active faults. -/
def Obligations.SetieWritesTheEnable : Prop :=
  (∀ cw b, decode cw = .ok (.setie b) ↔ cw &&& 0xFFFFEFFF = 0x00000007 ∧ b = cw.getLsbD 12) ∧
  (∀ s : State, s.Ready → exec (.setie false) s = .next { s with ie := false, resp := some .done }) ∧
  (∀ s : State, s.Ready → s.phase = .active → exec (.setie true) s = .next { s with ie := true, resp := some .done }) ∧
  ∀ s : State, s.Ready → s.phase ≠ .active →
    exec (.setie true) s = .next { s with fault := 6, resp := some (.fault 6) }

/-! ### The whole block -/

/-- The spec's inference R47 ("[derived: from the rules of 40_codec.md, 41_table_manager.md,
42_dispatch_registry.md, 43_cpu_interface.md]"): ENCODE, DECODE, RDSLOT and DLV change no state but on a fault and
answer the same again; INSTALL, INIT and LOAD repeated change nothing more; a second REG answers AlreadyBound; a
DISP that calls pushes the stack. -/
def Obligations.RepeatedCommands : Prop :=
  (∀ (s t : State) (i : Instr), i ∈ [Instr.encode, Instr.decode] ∨ (∃ v, i = .rdslot v ∨ i = .dlv v) →
    exec i s = .next t → t.fault = 0 → t = { s with resp := t.resp } ∧ exec i t = .next t) ∧
  (∀ (s t : State) (i : Instr), i ∈ [Instr.init, Instr.load] ∨ (∃ v, i = .install v) → s.mem.wf →
    exec i s = .next t → t.fault = 0 → exec i t = .next t) ∧
  (∀ (s t : State) (i : Nat), s.reg.length = s.cfg.nIrq → exec (.reg i) s = .next t → t.resp = some (.status .ok) →
    exec (.reg i) t = .next { t with resp := some (.status .alreadyBound) }) ∧
  ∀ (s t : State) (i : Nat) (h : Addr) (g : Tag) (c : Ctx), exec (.disp i) s = .next t →
    t.resp = some (.call h g c) → t.inService = s.inService ++ [i]

/-- R62: what a command does, and what it answers, depends on the ports listed for it alone. -/
def Obligations.UnlistedPortsAreIgnored : Prop :=
  ∀ (s t : State) (p : Ports) (i : Instr), samePorts s { s with ports := p } i → exec i s = .next t →
    exec i { s with ports := p } = .next { t with ports := p }

/-- The spec's inference R33 ("[derived: from the rules of 40_codec.md, ...]"), the cells without w: a command
leaves alone every element it is not marked to write (so `idtr` is written by LOAD only, `phase` by INIT and LOAD,
`ie` by SETIE, the table by INSTALL and INIT, the registry by REG, the stack by DISP and RET: R23 to R28), and
`fault` unless it answers a fault. -/
def Obligations.CommandsWriteOnlyTheirElements : Prop :=
  ∀ (s t : State) (i : Instr), exec i s = .next t →
    (∀ e, writes i e = false → Element.same s t e) ∧
    (t.fault = s.fault ∨ t.resp = some (.fault t.fault)) ∧
    (i = .encode ∨ i = .decode → t.fault = s.fault) ∧
    (∀ v, i = .install v → ∀ u, u ≠ v → t.slot u = s.slot u)

/-- The spec's inference R33 ("[derived: from the rules of 40_codec.md, ...]"), the cells without r: the answer, the
fault and what is written depend on the elements a command is marked to read alone (with its operands and the
parameters). -/
def Obligations.CommandsReadOnlyTheirElements : Prop :=
  ∀ (s s' t t' : State) (i : Instr), s.cfg = s'.cfg → s.mem.wf → s'.mem.wf → sameReads s s' i → samePorts s s' i →
    exec i s = .next t → exec i s' = .next t' →
    t.resp = t'.resp ∧ t.fault = t'.fault ∧ sameWrites t t' i

/-- R63: a step that performs a command answers exactly one response, of a form the rule gives that command; an
illegal word answers Fault(1); and no command, legal or not, depends on an earlier response. -/
def Obligations.EveryCommandAnswersOnce : Prop :=
  ∀ (s t : State) (r : Request) (rest : List Request), s.pending = r :: rest → step s = .next t →
    (∃ a, t.resp = some a ∧
      match decode r.cw with
      | .ok i => responseOf i a
      | .error _ => a = .fault 1) ∧
    ∀ earlier, step { s with resp := earlier } = .next t

/-- R24, R94: no step moves the phase back. -/
def Obligations.PhaseNeverMovesBack : Prop :=
  ∀ s t : State, step s = .next t → phaseRank s.phase ≤ phaseRank t.phase

/-- R22: no step changes the configuration; and the host's commands are taken one at a time, in their order (R6). -/
def Obligations.ConfigurationIsFixed : Prop :=
  ∀ s t : State, step s = .next t → t.cfg = s.cfg ∧ t.pending = s.pending.tail

/-- The invariant holds at reset, under every configuration R7 allows and whatever the host is about to issue. -/
def Obligations.InvariantHoldsAtReset : Prop :=
  (∀ (c : Config) (reqs : List Request), configValid c = true → (State.resetWith c reqs).Inv) ∧ State.reset.Inv

/-- Every step keeps the invariant, from every state that meets it. -/
def Obligations.InvariantIsKept : Prop :=
  ∀ s t : State, s.Inv → step s = .next t → t.Inv

/-- The spec's inference R31 (a) to (e) ("[derived: from rules R93, R94, R95, R106, R108, R111, R125]"), in every
state reachable from reset, under every configuration and every list of commands. -/
def Obligations.ReachableStatesMeetTheInvariants : Prop :=
  ∀ s : State, Reachable s →
    (s.ie = true → s.phase = .active) ∧
    (s.idtrValid = true ↔ s.phase = .active) ∧
    (s.idtrValid = true → s.idtr.limit.toNat = 8 * s.cfg.nSlots - 1 ∧ s.idtr.base = s.cfg.tableBase) ∧
    ((∀ i ∈ s.inService, validIrq s.cfg i = true ∧ (s.regAt i).bound = true) ∧ s.inService.Nodup) ∧
    ∀ v < s.cfg.nSlots, s.slot v &&& rsvdMask = 0

/-- The spec's inference "its depth is at most N_IRQ" (R28, "[derived: from rule R108 and rule R111]"). -/
def Obligations.ServiceStackDepth : Prop :=
  ∀ s : State, s.Inv → s.inService.length ≤ s.cfg.nIrq

/-- R144, whose first half the spec derives from R108 and R111: the interrupt context is entered by a DISP that
responds Call and left by the RET that empties the stack. -/
def Obligations.ContextEnteredByCallLeftByRet : Prop :=
  ∀ (s t : State) (i : Instr), exec i s = .next t →
    (s.context = .normal →
      (t.context = .interrupt ↔ ∃ n h g c, i = .disp n ∧ t.resp = some (.call h g c))) ∧
    (s.context = .interrupt →
      (t.context = .normal ↔ ∃ n, i = .ret n ∧ s.inService = [n]))

/-- R161: the values the spec gives for reset, under every configuration. -/
def Obligations.ResetLeavesTheSpecifiedValues : Prop :=
  ∀ (c : Config) (reqs : List Request),
    (∀ v, (State.resetWith c reqs).slot v = 0) ∧
    (State.resetWith c reqs).phase = .uninitialized ∧
    (State.resetWith c reqs).idtrValid = false ∧
    (State.resetWith c reqs).ie = false ∧
    (∀ i, ((State.resetWith c reqs).regAt i).bound = false) ∧
    (State.resetWith c reqs).inService = [] ∧
    (State.resetWith c reqs).fault = 0

/-- R45: under a configuration whose table would pass the end of the address space every command is refused, and so
is every word the host presents. -/
def Obligations.WrappingTableIsRefused : Prop :=
  ∀ s : State, s.cfg.tableBase.toNat + 8 * s.cfg.nSlots - 1 > 0xFFFFFFFF →
    (∀ i, exec i s = .refused .badConfig) ∧
    (s.pending ≠ [] → step s = .refused .badConfig)

/-- R74: what performing each pseudo-instruction leaves. That EI and DI put the idle operands on the ports they do not
list is the model's choice (DESIGN CHOICE, log entry 5). -/
def Obligations.PseudoInstructionsExpand : Prop :=
  ∀ (s : State) (rest : List Request) (v : Nat), s.Ready → s.mem.wf → v < s.cfg.nSlots →
    (∃ t, step { s with pending := pseudoClear v :: rest } = .next t ∧ t.resp = some .done ∧ t.slot v = 0) ∧
    (∀ h, ∃ t, step { s with pending := pseudoIgate s.cfg v h :: rest } = .next t ∧ t.resp = some .done ∧
      t.slot v = encodeGate ⟨h, s.cfg.kernelCs, 6, 1, s.cfg.kernelDpl, 1⟩) ∧
    (∀ h d, ∃ t, step { s with pending := pseudoTgate s.cfg v h d :: rest } = .next t ∧ t.resp = some .done ∧
      t.slot v = encodeGate ⟨h, s.cfg.kernelCs, 7, 1, d, 1⟩) ∧
    step { s with pending := pseudoEi :: rest } =
      exec (.setie true) { s with pending := rest, ports := Ports.idle } ∧
    step { s with pending := pseudoDi :: rest } =
      exec (.setie false) { s with pending := rest, ports := Ports.idle }
end

