-- ==== Sys2Proof/Laws/Codec.lean ====
section
/-! SUPPORT. The bits of an encoded gate and of a decoded word (40_codec.md R80, R81), so that no later proof
unfolds the shifts. -/

namespace Sys2Proof.Machine

/-- A field shifted to bit n has no bit outside its place. -/
theorem getLsbD_placed_out {w : Nat} (x : BitVec w) {n k : Nat} (h : k < n ∨ n + w ≤ k) :
    (x.setWidth 64 <<< n).getLsbD k = false := by
  rw [BitVec.getLsbD_shiftLeft, BitVec.getLsbD_setWidth]
  rcases h with h | h
  · simp [h]
  · simp [BitVec.getLsbD_of_ge x (k - n) (by omega)]

/-- A field shifted to bit n has its own bits there. -/
theorem getLsbD_placed_in {w : Nat} (x : BitVec w) {n k : Nat} (h1 : n ≤ k) (h2 : k < n + w) (h : n + w ≤ 64) :
    (x.setWidth 64 <<< n).getLsbD k = x.getLsbD (k - n) := by
  rw [BitVec.getLsbD_shiftLeft, BitVec.getLsbD_setWidth]
  simp [show k < 64 by omega, show k - n < 64 by omega, Nat.not_lt.2 h1]

/-- Every bit of an encoded gate, by the position it stands at. -/
theorem getLsbD_encodeGate (f : GateFields) (k : Nat) : (encodeGate f).getLsbD k =
    if k < 16 then f.off.getLsbD k
    else if k < 32 then f.sel.getLsbD (k - 16)
    else if k < 40 then false
    else if k < 43 then f.type.getLsbD (k - 40)
    else if k < 44 then f.size.getLsbD (k - 43)
    else if k < 45 then false
    else if k < 47 then f.dpl.getLsbD (k - 45)
    else if k < 48 then f.p.getLsbD (k - 47)
    else f.off.getLsbD (k - 32) := by
  have lo : ∀ x : BitVec 16, x.setWidth 64 = x.setWidth 64 <<< 0 := fun _ => by rw [BitVec.shiftLeft_zero]
  rw [encodeGate, lo]
  split_ifs
  all_goals
    simp (disch := omega) only [BitVec.getLsbD_or, getLsbD_placed_out, getLsbD_placed_in, Bool.false_or, Bool.or_false,
      BitVec.getLsbD_extractLsb', Nat.sub_zero, Nat.zero_add]
  · simp [*]
  · rcases Nat.lt_or_ge k 64 with h | h
    · simp (disch := omega) only [getLsbD_placed_in, BitVec.getLsbD_extractLsb']
      rw [show 16 + (k - 48) = k - 32 by omega]
      simp [show k - 48 < 16 by omega]
    · rw [getLsbD_placed_out _ (by omega), BitVec.getLsbD_of_ge _ _ (by omega)]

/-- The bits of a decoded offset: the low half at the bottom of the word, the high half at its top. -/
theorem getLsbD_gateFields_off (w : DescWord) (k : Nat) : (gateFields w).off.getLsbD k =
    if k < 16 then w.getLsbD k else decide (k < 32) && w.getLsbD (k + 32) := by
  show (w.extractLsb' 48 16 ++ w.extractLsb' 0 16).getLsbD k = _
  rw [BitVec.getLsbD_append]
  split
  · next h => simp [h]
  · next h =>
    rw [BitVec.getLsbD_extractLsb', show 48 + (k - 16) = k + 32 by omega,
      decide_eq_decide.2 (show k - 16 < 16 ↔ k < 32 by omega)]

/-- Two field records with the same fields are the same. -/
theorem gateFields_ext {f g : GateFields} (h1 : f.off = g.off) (h2 : f.sel = g.sel) (h3 : f.type = g.type)
    (h4 : f.size = g.size) (h5 : f.dpl = g.dpl) (h6 : f.p = g.p) : f = g := by
  cases f
  cases g
  simp_all

end Sys2Proof.Machine
end

