-- ==== Sys2Proof/Laws/Decode.lean ====
section
/-! SUPPORT. What the decoder answers, and the fields of an encoded word (30_encoding.md R61, R64). -/

namespace Sys2Proof

theorem getLsbD_cmdWord (op idx : Nat) (b : Bool) (k : Nat) : (cmdWord op idx b).getLsbD k =
    (decide (k < 32) && (op.testBit k || (decide (4 ≤ k) && idx.testBit (k - 4)) || (decide (k = 12) && b))) := by
  simp only [cmdWord, BitVec.getLsbD_or, BitVec.getLsbD_ofNat, BitVec.getLsbD_shiftLeft, BitVec.getLsbD_setWidth,
    BitVec.getLsbD_ofBool]
  rcases Nat.lt_or_ge k 32 with hk | hk
  · have h4 : k - 4 < 32 := by omega
    have h12 : (decide (k - 12 < 32) && (decide (k - 12 = 0) && b)) = (decide (k ≤ 12) && b) := by
      have : k - 12 < 32 := by omega
      have : (k - 12 = 0) ↔ k ≤ 12 := by omega
      simp [*]
    rcases Nat.lt_trichotomy k 12 with h | h | h
    · simp [hk, h4, h, Nat.ne_of_lt h]
      rcases Nat.lt_or_ge k 4 with h | h <;> simp [h, Nat.not_lt.2, Nat.not_le.2]
    · subst h; simp
    · have : ¬ k < 12 := by omega
      have : k - 12 ≠ 0 := by omega
      have : k ≠ 12 := by omega
      have : 4 ≤ k := by omega
      have : ¬ k < 4 := by omega
      simp [*]
  · simp [Nat.not_lt.2 hk]

theorem testBit_of_lt {n k w : Nat} (h : n < 2 ^ w) (hk : w ≤ k) : n.testBit k = false :=
  Nat.testBit_lt_two_pow (h.trans_le (Nat.pow_le_pow_right (by omega) hk))

/-- The fields of a word put together from them. -/
theorem fields_cmdWord {op idx : Nat} (b : Bool) (ho : op < 16) (hi : idx < 256) :
    opField (cmdWord op idx b) = op ∧ idxField (cmdWord op idx b) = idx ∧ bField (cmdWord op idx b) = b ∧
      rsvdField (cmdWord op idx b) = 0 := by
  have ho : ∀ k, 4 ≤ k → op.testBit k = false := fun k => testBit_of_lt (w := 4) ho
  have hi : ∀ k, 8 ≤ k → idx.testBit k = false := fun k => testBit_of_lt (w := 8) hi
  have h4 : ∀ k, ((cmdWord op idx b).extractLsb' 0 4).toNat.testBit k = op.testBit k := fun k => by
    rw [BitVec.testBit_toNat, BitVec.getLsbD_extractLsb', getLsbD_cmdWord]
    rcases Nat.lt_or_ge k 4 with h | h
    · have : k < 32 := by omega
      have : k ≠ 12 := by omega
      have : ¬ 4 ≤ k := by omega
      simp [*]
    · simp [ho k h, Nat.not_lt.2 h]
  have h8 : ∀ k, ((cmdWord op idx b).extractLsb' 4 8).toNat.testBit k = idx.testBit k := fun k => by
    rw [BitVec.testBit_toNat, BitVec.getLsbD_extractLsb', getLsbD_cmdWord]
    rcases Nat.lt_or_ge k 8 with h | h
    · have : 4 + k < 32 := by omega
      have : 4 + k ≠ 12 := by omega
      have : op.testBit (4 + k) = false := ho _ (by omega)
      simp [*]
    · simp [hi k h, Nat.not_lt.2 h]
  have h19 : ∀ k, ((cmdWord op idx b).extractLsb' 13 19).toNat.testBit k = false := fun k => by
    rw [BitVec.testBit_toNat, BitVec.getLsbD_extractLsb', getLsbD_cmdWord]
    have : op.testBit (13 + k) = false := ho _ (by omega)
    have : idx.testBit (13 + k - 4) = false := hi _ (by omega)
    have : 13 + k ≠ 12 := by omega
    simp [*]
  refine ⟨Nat.eq_of_testBit_eq h4, Nat.eq_of_testBit_eq h8, ?_, Nat.eq_of_testBit_eq fun k => (h19 k).trans (Nat.zero_testBit k).symm⟩
  rw [bField, getLsbD_cmdWord, ho 12 (by omega), hi (12 - 4) (by omega)]
  simp

/-- A word is its four fields (R61). -/
theorem toNat_eq_fields (cw : CmdWord) :
    cw.toNat = opField cw + 16 * idxField cw + 4096 * (bField cw).toNat + 8192 * rsvdField cw := by
  have hb : (bField cw).toNat = cw.toNat / 4096 % 2 := by
    rw [bField, BitVec.getLsbD, Nat.testBit_eq_decide_div_mod_eq]
    rcases Nat.mod_two_eq_zero_or_one (cw.toNat / 4096) with h | h <;> simp [h]
  have hlt := cw.isLt
  rw [hb, opField, idxField, rsvdField]
  simp only [BitVec.extractLsb'_toNat, Nat.shiftRight_eq_div_pow]
  omega

/-- Two words with the same fields are the same. -/
theorem word_ext {x y : CmdWord} (ho : opField x = opField y) (hi : idxField x = idxField y)
    (hb : bField x = bField y) (hr : rsvdField x = rsvdField y) : x = y :=
  BitVec.eq_of_toNat_eq (by rw [toNat_eq_fields x, toNat_eq_fields y, ho, hi, hb, hr])

/-- A field a mask covers is not changed by it. -/
theorem extractLsb'_and_ones (x m : CmdWord) {a n : Nat} (h : m.extractLsb' a n = BitVec.allOnes n) :
    (x &&& m).extractLsb' a n = x.extractLsb' a n := by
  rw [BitVec.extractLsb'_and, h, BitVec.and_allOnes]

/-- What it takes to be a word of a row whose free field is `idx` (R64). -/
theorem and_idxMask (cw : CmdWord) {op : Nat} (h : op < 16) :
    cw &&& 0xFFFFF00F = BitVec.ofNat 32 op ↔ opField cw = op ∧ bField cw = false ∧ rsvdField cw = 0 := by
  have e : ∀ op < 16, opField (BitVec.ofNat 32 op) = op ∧ idxField (BitVec.ofNat 32 op) = 0 ∧
      bField (BitVec.ofNat 32 op) = false ∧ rsvdField (BitVec.ofNat 32 op) = 0 := by decide
  have ho : opField (cw &&& 0xFFFFF00F) = opField cw :=
    congrArg BitVec.toNat (extractLsb'_and_ones cw _ (a := 0) (n := 4) (by decide))
  have hi : idxField (cw &&& 0xFFFFF00F) = 0 := by
    rw [idxField, BitVec.extractLsb'_and, show (0xFFFFF00F : CmdWord).extractLsb' 4 8 = 0#8 by decide, BitVec.and_zero]
    rfl
  have hb : bField (cw &&& 0xFFFFF00F) = bField cw := by
    rw [bField, BitVec.getLsbD_and, show (0xFFFFF00F : CmdWord).getLsbD 12 = true by decide, Bool.and_true, bField]
  have hr : rsvdField (cw &&& 0xFFFFF00F) = rsvdField cw :=
    congrArg BitVec.toNat (extractLsb'_and_ones cw _ (a := 13) (n := 19) (by decide))
  obtain ⟨e1, e2, e3, e4⟩ := e op h
  constructor
  · intro heq
    rw [heq] at ho hb hr
    exact ⟨ho.symm.trans e1, hb.symm.trans e3, hr.symm.trans e4⟩
  · rintro ⟨h1, h2, h3⟩
    exact word_ext (by rw [ho, h1, e1]) (by rw [hi, e2]) (by rw [hb, h2, e3]) (by rw [hr, h3, e4])

/-- What it takes to be a word of the row whose free field is `b` (R64). -/
theorem and_enableMask (cw : CmdWord) :
    cw &&& 0xFFFFEFFF = 0x00000007 ↔ opField cw = 7 ∧ idxField cw = 0 ∧ rsvdField cw = 0 := by
  have ho : opField (cw &&& 0xFFFFEFFF) = opField cw :=
    congrArg BitVec.toNat (extractLsb'_and_ones cw _ (a := 0) (n := 4) (by decide))
  have hi : idxField (cw &&& 0xFFFFEFFF) = idxField cw :=
    congrArg BitVec.toNat (extractLsb'_and_ones cw _ (a := 4) (n := 8) (by decide))
  have hb : bField (cw &&& 0xFFFFEFFF) = false := by
    rw [bField, BitVec.getLsbD_and, show (0xFFFFEFFF : CmdWord).getLsbD 12 = false by decide, Bool.and_false]
  have hr : rsvdField (cw &&& 0xFFFFEFFF) = rsvdField cw :=
    congrArg BitVec.toNat (extractLsb'_and_ones cw _ (a := 13) (n := 19) (by decide))
  constructor
  · intro heq
    rw [heq] at ho hi hr
    exact ⟨ho.symm, hi.symm, hr.symm⟩
  · rintro ⟨h1, h2, h3⟩
    exact word_ext (by rw [ho, h1]; rfl) (by rw [hi, h2]; rfl) (by rw [hb]; rfl) (by rw [hr, h3]; rfl)

/-- What it takes to be the one word of a row with no free field (R64). -/
theorem and_fullMask (cw : CmdWord) {op : Nat} (h : op < 16) : cw &&& 0xFFFFFFFF = BitVec.ofNat 32 op ↔
    opField cw = op ∧ idxField cw = 0 ∧ bField cw = false ∧ rsvdField cw = 0 := by
  have e : ∀ op < 16, opField (BitVec.ofNat 32 op) = op ∧ idxField (BitVec.ofNat 32 op) = 0 ∧
      bField (BitVec.ofNat 32 op) = false ∧ rsvdField (BitVec.ofNat 32 op) = 0 := by decide
  rw [show (0xFFFFFFFF : CmdWord) = BitVec.allOnes 32 by decide, BitVec.and_allOnes]
  obtain ⟨e1, e2, e3, e4⟩ := e op h
  constructor
  · rintro rfl
    exact ⟨e1, e2, e3, e4⟩
  · rintro ⟨h1, h2, h3, h4⟩
    exact word_ext (by rw [h1, e1]) (by rw [h2, e2]) (by rw [h3, e3]) (by rw [h4, e4])

/-- What the decoder answers comes from a row that selects the word. -/
theorem decode_ok {cw : CmdWord} {i : Instr} (h : decode cw = .ok i) :
    ∃ r ∈ opcodeMap, r.selects cw = true ∧ i = r.make (idxField cw) (bField cw) := by
  unfold decode at h
  split at h
  · next r hr =>
    injection h with h
    exact ⟨r, List.mem_of_find?_eq_some hr, by simpa using List.find?_some hr, h.symm⟩
  · cases h

/-- A word the decoder rejects is selected by no row. -/
theorem decode_error {cw : CmdWord} {e : IllegalWord} (h : decode cw = .error e) :
    ∀ r ∈ opcodeMap, r.selects cw = false := by
  unfold decode at h
  split at h
  · cases h
  · next hn => simpa using List.find?_eq_none.1 hn

end Sys2Proof
end

