-- ==== Sys2Proof/Laws/Memory.lean ====
section
/-! SUPPORT. What the memory operations do: a read after a write, what a write leaves alone, and that every
operation keeps the canonical form `Memory.wf`. -/

namespace Sys2Proof.Machine

/-! ### One byte -/

/-- Every key of the list lies above `a`. -/
abbrev Memory.above (a : Nat) (m : Memory) : Prop := ∀ c ∈ m, a < c.1

theorem Memory.get_of_above {a : Nat} : ∀ {m : Memory}, m.above a → m.get a = unlistedByte
  | [], _ => rfl
  | (k, c) :: m, h => by
    have hk : a < k := h (k, c) (by simp)
    have hm : Memory.above a m := fun d hd => h d (by simp [hd])
    simp [Memory.get, Nat.ne_of_lt hk, Memory.get_of_above hm]

theorem Memory.wf_nil : Memory.wf [] := by simp [Memory.wf]

theorem State.wf_resetWith (c : Config) (reqs : List Request) : (State.resetWith c reqs).mem.wf := Memory.wf_nil

theorem Memory.wf_cons {k : Nat} {c : Byte} {m : Memory} :
    Memory.wf ((k, c) :: m) ↔ c ≠ unlistedByte ∧ Memory.above k m ∧ Memory.wf m := by
  simp only [Memory.wf, Memory.above, List.pairwise_cons, List.mem_cons, forall_eq_or_imp]
  tauto

theorem get_consByte_same {a : Nat} {b : Byte} {m : Memory} (h : m.above a) : (consByte a b m).get a = b := by
  unfold consByte
  split
  · next hb => rw [Memory.get_of_above h, hb]
  · simp [Memory.get]

theorem get_consByte_other {a x : Nat} (b : Byte) (m : Memory) (h : x ≠ a) : (consByte a b m).get x = m.get x := by
  unfold consByte
  split
  · rfl
  · simp [Memory.get, h]

theorem wf_consByte {a : Nat} (b : Byte) {m : Memory} (h : m.above a) (hm : m.wf) : (consByte a b m).wf := by
  unfold consByte
  split
  · exact hm
  · next hb => exact Memory.wf_cons.2 ⟨hb, h, hm⟩

theorem mem_consByte {a : Nat} {b : Byte} {m : Memory} {d : Host.Cell} (h : d ∈ consByte a b m) :
    d.1 = a ∨ d ∈ m := by
  unfold consByte at h
  split at h
  · exact .inr h
  · rcases List.mem_cons.1 h with rfl | h
    · exact .inl rfl
    · exact .inr h

/-- A write lists no address that was not listed, but the one written. -/
theorem Memory.mem_put {a : Nat} {b : Byte} {d : Host.Cell} : ∀ {m : Memory}, d ∈ m.put a b → d.1 = a ∨ d ∈ m
  | [], h => by simpa using mem_consByte h
  | (k, c) :: m, h => by
    unfold Memory.put at h
    split at h
    · exact mem_consByte h
    split at h
    · exact (mem_consByte h).imp_right (List.mem_cons_of_mem _)
    · rcases List.mem_cons.1 h with rfl | h
      · exact .inr (by simp)
      · exact (Memory.mem_put h).imp_right (List.mem_cons_of_mem _)

/-- A write keeps the canonical form. -/
theorem Memory.wf_put (a : Nat) (b : Byte) : ∀ {m : Memory}, m.wf → (m.put a b).wf
  | [], h => wf_consByte b (by simp) h
  | (k, c) :: m, h => by
    obtain ⟨hc, hk, hm⟩ := Memory.wf_cons.1 h
    unfold Memory.put
    split
    · next hlt =>
      refine wf_consByte b (fun d hd => ?_) h
      rcases List.mem_cons.1 hd with rfl | hd
      · exact hlt
      · exact hlt.trans (hk d hd)
    split
    · next heq => exact wf_consByte b (heq ▸ hk) hm
    · next hlt hne =>
      refine Memory.wf_cons.2 ⟨hc, fun d hd => ?_, Memory.wf_put a b hm⟩
      rcases Memory.mem_put hd with rfl | hd
      · omega
      · exact hk d hd

/-- A read after a write of the same byte gives the byte written. -/
theorem Memory.get_put_same (a : Nat) (b : Byte) : ∀ {m : Memory}, m.wf → (m.put a b).get a = b
  | [], _ => get_consByte_same (by simp)
  | (k, c) :: m, h => by
    obtain ⟨-, hk, hm⟩ := Memory.wf_cons.1 h
    unfold Memory.put
    split
    · next hlt =>
      refine get_consByte_same fun d hd => ?_
      rcases List.mem_cons.1 hd with rfl | hd
      · exact hlt
      · exact hlt.trans (hk d hd)
    split
    · next heq => exact get_consByte_same (heq ▸ hk)
    · next hne => rw [Memory.get, if_neg hne, Memory.get_put_same a b hm]

/-- A write leaves every other byte alone. -/
theorem Memory.get_put_other {a x : Nat} (b : Byte) (h : x ≠ a) : ∀ m : Memory, (m.put a b).get x = m.get x
  | [] => get_consByte_other b [] h
  | (k, c) :: m => by
    unfold Memory.put
    split
    · exact get_consByte_other b _ h
    split
    · next heq => rw [get_consByte_other b m h, Memory.get, if_neg (heq ▸ h)]
    · simp only [Memory.get, Memory.get_put_other b h m]

/-! ### Several bytes -/

/-- Writing bytes keeps the canonical form. -/
theorem Memory.wf_putBytes : ∀ (bs : List Byte) (a : Nat) {m : Memory}, m.wf → (m.putBytes a bs).wf
  | [], _, _, h => h
  | b :: bs, a, _, h => Memory.wf_putBytes bs (a + 1) (Memory.wf_put a b h)

/-- Writing bytes lists only addresses of the bytes written. -/
theorem Memory.mem_putBytes {d : Host.Cell} : ∀ (bs : List Byte) (a : Nat) {m : Memory},
    d ∈ m.putBytes a bs → (a ≤ d.1 ∧ d.1 < a + bs.length) ∨ d ∈ m
  | [], _, _, h => .inr h
  | b :: bs, a, m, h => by
    rcases Memory.mem_putBytes bs (a + 1) h with h | h
    · exact .inl ⟨by omega, by simp only [List.length_cons]; omega⟩
    · rcases Memory.mem_put h with h | h
      · exact .inl ⟨by omega, by simp only [List.length_cons]; omega⟩
      · exact .inr h

/-- Writing bytes leaves every byte outside them alone. -/
theorem Memory.get_putBytes_other {x : Nat} : ∀ (bs : List Byte) (a : Nat) (m : Memory),
    (x < a ∨ a + bs.length ≤ x) → (m.putBytes a bs).get x = m.get x
  | [], _, _, _ => rfl
  | b :: bs, a, m, h => by
    simp only [List.length_cons] at h
    rw [Memory.putBytes, Memory.get_putBytes_other bs (a + 1) _ (by omega),
      Memory.get_put_other b (by omega)]

/-- A read after writing bytes gives the byte written there. -/
theorem Memory.get_putBytes_same : ∀ (bs : List Byte) (a k : Nat) {m : Memory}, m.wf → (hk : k < bs.length) →
    (m.putBytes a bs).get (a + k) = bs[k]
  | b :: bs, a, 0, m, h, _ => by
    show ((m.put a b).putBytes (a + 1) bs).get a = b
    rw [Memory.get_putBytes_other bs (a + 1) _ (by omega), Memory.get_put_same a b h]
  | b :: bs, a, k + 1, m, h, hk => by
    have := Memory.get_putBytes_same bs (a + 1) k (Memory.wf_put a b h) (by simpa using hk)
    rw [Memory.putBytes, show a + (k + 1) = a + 1 + k by omega, this]
    rfl

/-- Reading bytes reads each of them. -/
theorem Memory.getBytes_congr {m m' : Memory} : ∀ (n a : Nat), (∀ x, a ≤ x → x < a + n → m.get x = m'.get x) →
    m.getBytes a n = m'.getBytes a n
  | 0, _, _ => rfl
  | n + 1, a, h => by
    rw [Memory.getBytes, Memory.getBytes, h a (by omega) (by omega),
      Memory.getBytes_congr n (a + 1) fun x h1 h2 => h x (by omega) (by omega)]

/-- Reading back all the bytes just written gives them. -/
theorem Memory.getBytes_putBytes : ∀ (bs : List Byte) (a : Nat) {m : Memory}, m.wf →
    (m.putBytes a bs).getBytes a bs.length = bs
  | [], _, _, _ => rfl
  | b :: bs, a, m, h => by
    have ih := Memory.getBytes_putBytes bs (a + 1) (Memory.wf_put a b h)
    rw [List.length_cons, Memory.getBytes, Memory.putBytes, ih,
      Memory.get_putBytes_other bs (a + 1) _ (by omega), Memory.get_put_same a b h]

/-- Two memories in canonical form that read the same at every address are the same list. -/
theorem Memory.ext_get : ∀ {m m' : Memory}, m.wf → m'.wf → (∀ a, m.get a = m'.get a) → m = m'
  | [], [], _, _, _ => rfl
  | [], (k, c) :: m', _, h', e => by
    have := e k
    simp [Memory.get] at this
    exact absurd this.symm (Memory.wf_cons.1 h').1
  | (k, c) :: m, [], h, _, e => by
    have := e k
    simp [Memory.get] at this
    exact absurd this (Memory.wf_cons.1 h).1
  | (k, c) :: m, (k', c') :: m', h, h', e => by
    obtain ⟨hc, hk, hm⟩ := Memory.wf_cons.1 h
    obtain ⟨hc', hk', hm'⟩ := Memory.wf_cons.1 h'
    have above_of_lt : ∀ {a b : Nat} {l : Memory}, a < b → Memory.above b l → Memory.above a l :=
      fun hab hl d hd => hab.trans (hl d hd)
    have hkk : k = k' := by
      rcases Nat.lt_trichotomy k k' with hlt | heq | hgt
      · have e1 := e k
        rw [Memory.get, if_pos rfl, Memory.get, if_neg (by omega), Memory.get_of_above (above_of_lt hlt hk')] at e1
        exact absurd e1 hc
      · exact heq
      · have e1 := e k'
        rw [Memory.get, if_neg (by omega), Memory.get_of_above (above_of_lt hgt hk), Memory.get, if_pos rfl] at e1
        exact absurd e1.symm hc'
    subst hkk
    have hcc : c = c' := by simpa [Memory.get] using e k
    subst hcc
    have : m = m' := Memory.ext_get hm hm' fun a => by
      by_cases ha : a = k
      · subst ha
        rw [Memory.get_of_above hk, Memory.get_of_above hk']
      · simpa [Memory.get, ha] using e a
    rw [this]

end Sys2Proof.Machine
end

