-- ==== Sys2Proof/Laws/State.lean ====
section
/-! SUPPORT. One lemma per field per named update of `State`, true by rfl, so that no later proof unfolds a record
update. -/

namespace Sys2Proof.Machine

variable (s : State)

/-! ### `State.setSlot` -/

@[simp] theorem State.setSlot_cfg (v : Nat) (w : DescWord) : (s.setSlot v w).cfg = s.cfg := rfl
@[simp] theorem State.setSlot_mem (v : Nat) (w : DescWord) : (s.setSlot v w).mem = s.mem.putBytes (slotAddr s.cfg v) (wordBytes w) := rfl
@[simp] theorem State.setSlot_phase (v : Nat) (w : DescWord) : (s.setSlot v w).phase = s.phase := rfl
@[simp] theorem State.setSlot_idtr (v : Nat) (w : DescWord) : (s.setSlot v w).idtr = s.idtr := rfl
@[simp] theorem State.setSlot_idtrValid (v : Nat) (w : DescWord) : (s.setSlot v w).idtrValid = s.idtrValid := rfl
@[simp] theorem State.setSlot_ie (v : Nat) (w : DescWord) : (s.setSlot v w).ie = s.ie := rfl
@[simp] theorem State.setSlot_reg (v : Nat) (w : DescWord) : (s.setSlot v w).reg = s.reg := rfl
@[simp] theorem State.setSlot_inService (v : Nat) (w : DescWord) : (s.setSlot v w).inService = s.inService := rfl
@[simp] theorem State.setSlot_fault (v : Nat) (w : DescWord) : (s.setSlot v w).fault = s.fault := rfl
@[simp] theorem State.setSlot_pending (v : Nat) (w : DescWord) : (s.setSlot v w).pending = s.pending := rfl
@[simp] theorem State.setSlot_ports (v : Nat) (w : DescWord) : (s.setSlot v w).ports = s.ports := rfl
@[simp] theorem State.setSlot_resp (v : Nat) (w : DescWord) : (s.setSlot v w).resp = s.resp := rfl

/-! ### `State.setPhase` -/

@[simp] theorem State.setPhase_cfg (p : Phase) : (s.setPhase p).cfg = s.cfg := rfl
@[simp] theorem State.setPhase_mem (p : Phase) : (s.setPhase p).mem = s.mem := rfl
@[simp] theorem State.setPhase_phase (p : Phase) : (s.setPhase p).phase = p := rfl
@[simp] theorem State.setPhase_idtr (p : Phase) : (s.setPhase p).idtr = s.idtr := rfl
@[simp] theorem State.setPhase_idtrValid (p : Phase) : (s.setPhase p).idtrValid = s.idtrValid := rfl
@[simp] theorem State.setPhase_ie (p : Phase) : (s.setPhase p).ie = s.ie := rfl
@[simp] theorem State.setPhase_reg (p : Phase) : (s.setPhase p).reg = s.reg := rfl
@[simp] theorem State.setPhase_inService (p : Phase) : (s.setPhase p).inService = s.inService := rfl
@[simp] theorem State.setPhase_fault (p : Phase) : (s.setPhase p).fault = s.fault := rfl
@[simp] theorem State.setPhase_pending (p : Phase) : (s.setPhase p).pending = s.pending := rfl
@[simp] theorem State.setPhase_ports (p : Phase) : (s.setPhase p).ports = s.ports := rfl
@[simp] theorem State.setPhase_resp (p : Phase) : (s.setPhase p).resp = s.resp := rfl

/-! ### `State.setIe` -/

@[simp] theorem State.setIe_cfg (b : Bool) : (s.setIe b).cfg = s.cfg := rfl
@[simp] theorem State.setIe_mem (b : Bool) : (s.setIe b).mem = s.mem := rfl
@[simp] theorem State.setIe_phase (b : Bool) : (s.setIe b).phase = s.phase := rfl
@[simp] theorem State.setIe_idtr (b : Bool) : (s.setIe b).idtr = s.idtr := rfl
@[simp] theorem State.setIe_idtrValid (b : Bool) : (s.setIe b).idtrValid = s.idtrValid := rfl
@[simp] theorem State.setIe_ie (b : Bool) : (s.setIe b).ie = b := rfl
@[simp] theorem State.setIe_reg (b : Bool) : (s.setIe b).reg = s.reg := rfl
@[simp] theorem State.setIe_inService (b : Bool) : (s.setIe b).inService = s.inService := rfl
@[simp] theorem State.setIe_fault (b : Bool) : (s.setIe b).fault = s.fault := rfl
@[simp] theorem State.setIe_pending (b : Bool) : (s.setIe b).pending = s.pending := rfl
@[simp] theorem State.setIe_ports (b : Bool) : (s.setIe b).ports = s.ports := rfl
@[simp] theorem State.setIe_resp (b : Bool) : (s.setIe b).resp = s.resp := rfl

/-! ### `State.installIdtr` -/

@[simp] theorem State.installIdtr_cfg (r : Idtr) : (s.installIdtr r).cfg = s.cfg := rfl
@[simp] theorem State.installIdtr_mem (r : Idtr) : (s.installIdtr r).mem = s.mem := rfl
@[simp] theorem State.installIdtr_phase (r : Idtr) : (s.installIdtr r).phase = .active := rfl
@[simp] theorem State.installIdtr_idtr (r : Idtr) : (s.installIdtr r).idtr = r := rfl
@[simp] theorem State.installIdtr_idtrValid (r : Idtr) : (s.installIdtr r).idtrValid = true := rfl
@[simp] theorem State.installIdtr_ie (r : Idtr) : (s.installIdtr r).ie = s.ie := rfl
@[simp] theorem State.installIdtr_reg (r : Idtr) : (s.installIdtr r).reg = s.reg := rfl
@[simp] theorem State.installIdtr_inService (r : Idtr) : (s.installIdtr r).inService = s.inService := rfl
@[simp] theorem State.installIdtr_fault (r : Idtr) : (s.installIdtr r).fault = s.fault := rfl
@[simp] theorem State.installIdtr_pending (r : Idtr) : (s.installIdtr r).pending = s.pending := rfl
@[simp] theorem State.installIdtr_ports (r : Idtr) : (s.installIdtr r).ports = s.ports := rfl
@[simp] theorem State.installIdtr_resp (r : Idtr) : (s.installIdtr r).resp = s.resp := rfl

/-! ### `State.setReg` -/

@[simp] theorem State.setReg_cfg (i : Nat) (e : RegEntry) : (s.setReg i e).cfg = s.cfg := rfl
@[simp] theorem State.setReg_mem (i : Nat) (e : RegEntry) : (s.setReg i e).mem = s.mem := rfl
@[simp] theorem State.setReg_phase (i : Nat) (e : RegEntry) : (s.setReg i e).phase = s.phase := rfl
@[simp] theorem State.setReg_idtr (i : Nat) (e : RegEntry) : (s.setReg i e).idtr = s.idtr := rfl
@[simp] theorem State.setReg_idtrValid (i : Nat) (e : RegEntry) : (s.setReg i e).idtrValid = s.idtrValid := rfl
@[simp] theorem State.setReg_ie (i : Nat) (e : RegEntry) : (s.setReg i e).ie = s.ie := rfl
@[simp] theorem State.setReg_reg (i : Nat) (e : RegEntry) : (s.setReg i e).reg = s.reg.set (i - s.cfg.irqBase) e := rfl
@[simp] theorem State.setReg_inService (i : Nat) (e : RegEntry) : (s.setReg i e).inService = s.inService := rfl
@[simp] theorem State.setReg_fault (i : Nat) (e : RegEntry) : (s.setReg i e).fault = s.fault := rfl
@[simp] theorem State.setReg_pending (i : Nat) (e : RegEntry) : (s.setReg i e).pending = s.pending := rfl
@[simp] theorem State.setReg_ports (i : Nat) (e : RegEntry) : (s.setReg i e).ports = s.ports := rfl
@[simp] theorem State.setReg_resp (i : Nat) (e : RegEntry) : (s.setReg i e).resp = s.resp := rfl

/-! ### `State.pushService` -/

@[simp] theorem State.pushService_cfg (i : Nat) : (s.pushService i).cfg = s.cfg := rfl
@[simp] theorem State.pushService_mem (i : Nat) : (s.pushService i).mem = s.mem := rfl
@[simp] theorem State.pushService_phase (i : Nat) : (s.pushService i).phase = s.phase := rfl
@[simp] theorem State.pushService_idtr (i : Nat) : (s.pushService i).idtr = s.idtr := rfl
@[simp] theorem State.pushService_idtrValid (i : Nat) : (s.pushService i).idtrValid = s.idtrValid := rfl
@[simp] theorem State.pushService_ie (i : Nat) : (s.pushService i).ie = s.ie := rfl
@[simp] theorem State.pushService_reg (i : Nat) : (s.pushService i).reg = s.reg := rfl
@[simp] theorem State.pushService_inService (i : Nat) : (s.pushService i).inService = s.inService ++ [i] := rfl
@[simp] theorem State.pushService_fault (i : Nat) : (s.pushService i).fault = s.fault := rfl
@[simp] theorem State.pushService_pending (i : Nat) : (s.pushService i).pending = s.pending := rfl
@[simp] theorem State.pushService_ports (i : Nat) : (s.pushService i).ports = s.ports := rfl
@[simp] theorem State.pushService_resp (i : Nat) : (s.pushService i).resp = s.resp := rfl

/-! ### `State.popService` -/

@[simp] theorem State.popService_cfg : s.popService.cfg = s.cfg := rfl
@[simp] theorem State.popService_mem : s.popService.mem = s.mem := rfl
@[simp] theorem State.popService_phase : s.popService.phase = s.phase := rfl
@[simp] theorem State.popService_idtr : s.popService.idtr = s.idtr := rfl
@[simp] theorem State.popService_idtrValid : s.popService.idtrValid = s.idtrValid := rfl
@[simp] theorem State.popService_ie : s.popService.ie = s.ie := rfl
@[simp] theorem State.popService_reg : s.popService.reg = s.reg := rfl
@[simp] theorem State.popService_inService : s.popService.inService = s.inService.dropLast := rfl
@[simp] theorem State.popService_fault : s.popService.fault = s.fault := rfl
@[simp] theorem State.popService_pending : s.popService.pending = s.pending := rfl
@[simp] theorem State.popService_ports : s.popService.ports = s.ports := rfl
@[simp] theorem State.popService_resp : s.popService.resp = s.resp := rfl

/-! ### `State.accept` -/

@[simp] theorem State.accept_cfg (r : Request) (rest : List Request) : (s.accept r rest).cfg = s.cfg := rfl
@[simp] theorem State.accept_mem (r : Request) (rest : List Request) : (s.accept r rest).mem = s.mem := rfl
@[simp] theorem State.accept_phase (r : Request) (rest : List Request) : (s.accept r rest).phase = s.phase := rfl
@[simp] theorem State.accept_idtr (r : Request) (rest : List Request) : (s.accept r rest).idtr = s.idtr := rfl
@[simp] theorem State.accept_idtrValid (r : Request) (rest : List Request) : (s.accept r rest).idtrValid = s.idtrValid := rfl
@[simp] theorem State.accept_ie (r : Request) (rest : List Request) : (s.accept r rest).ie = s.ie := rfl
@[simp] theorem State.accept_reg (r : Request) (rest : List Request) : (s.accept r rest).reg = s.reg := rfl
@[simp] theorem State.accept_inService (r : Request) (rest : List Request) : (s.accept r rest).inService = s.inService := rfl
@[simp] theorem State.accept_fault (r : Request) (rest : List Request) : (s.accept r rest).fault = s.fault := rfl
@[simp] theorem State.accept_pending (r : Request) (rest : List Request) : (s.accept r rest).pending = rest := rfl
@[simp] theorem State.accept_ports (r : Request) (rest : List Request) : (s.accept r rest).ports = r.ports := rfl
@[simp] theorem State.accept_resp (r : Request) (rest : List Request) : (s.accept r rest).resp = s.resp := rfl

/-! ### `State.idle` -/

@[simp] theorem State.idle_cfg : s.idle.cfg = s.cfg := rfl
@[simp] theorem State.idle_mem : s.idle.mem = s.mem := rfl
@[simp] theorem State.idle_phase : s.idle.phase = s.phase := rfl
@[simp] theorem State.idle_idtr : s.idle.idtr = s.idtr := rfl
@[simp] theorem State.idle_idtrValid : s.idle.idtrValid = s.idtrValid := rfl
@[simp] theorem State.idle_ie : s.idle.ie = s.ie := rfl
@[simp] theorem State.idle_reg : s.idle.reg = s.reg := rfl
@[simp] theorem State.idle_inService : s.idle.inService = s.inService := rfl
@[simp] theorem State.idle_fault : s.idle.fault = s.fault := rfl
@[simp] theorem State.idle_pending : s.idle.pending = s.pending := rfl
@[simp] theorem State.idle_ports : s.idle.ports = s.ports := rfl
@[simp] theorem State.idle_resp : s.idle.resp = none := rfl

end Sys2Proof.Machine
end

