-- ==== Sys2Proof/Laws/Table.lean ====
section
/-! SUPPORT. What the slot operations do: `table[v]` after a write of a slot, the bytes a slot write changes, and
INIT's pass over all slots (10_state.md R23; 20_memory.md R41, R46). -/

namespace Sys2Proof.Machine

@[simp] theorem length_wordBytes (w : DescWord) : (wordBytes w).length = 8 := rfl

theorem getElem_wordBytes (w : DescWord) (k : Nat) (h : k < (wordBytes w).length) : (wordBytes w)[k] = wordByte w k := by
  simp [wordBytes]

theorem toNat_wordByte (w : DescWord) (k : Nat) : (wordByte w k).toNat = w.toNat / 256 ^ k % 256 := by
  rw [wordByte, BitVec.extractLsb'_toNat, Nat.shiftRight_eq_div_pow, Nat.pow_mul]

/-- The little-endian bytes of a word spell the word. -/
theorem leNat_wordBytes (w : DescWord) : leNat (wordBytes w) = w.toNat := by
  have hw := w.isLt
  have e : wordBytes w = [wordByte w 0, wordByte w 1, wordByte w 2, wordByte w 3, wordByte w 4, wordByte w 5,
    wordByte w 6, wordByte w 7] := rfl
  rw [e]
  simp only [leNat, toNat_wordByte]
  omega

/-- A number spelled by n bytes is below 256^n. -/
theorem leNat_lt (bs : List Byte) : leNat bs < 256 ^ bs.length := by
  induction bs with
  | nil => simp [leNat]
  | cons b bs ih =>
    have := b.isLt
    simp only [leNat, List.length_cons, Nat.pow_succ]
    omega

theorem length_getBytes (m : Memory) : ∀ n a, (m.getBytes a n).length = n
  | 0, _ => rfl
  | n + 1, a => by simp [Memory.getBytes, length_getBytes m n (a + 1)]

/-- The k-th byte of a little-endian number read from memory is the byte read at the k-th address. -/
theorem leNat_getBytes_byte (m : Memory) : ∀ n a k, k < n → leNat (m.getBytes a n) / 256 ^ k % 256 = (m.get (a + k)).toNat
  | n + 1, a, 0, _ => by
    have := (m.get a).isLt
    simp only [Memory.getBytes, leNat, Nat.pow_zero, Nat.div_one, Nat.add_zero]
    omega
  | n + 1, a, k + 1, h => by
    have hb := (m.get a).isLt
    have ih := leNat_getBytes_byte m n (a + 1) k (by omega)
    rw [show a + (k + 1) = a + 1 + k by omega, ← ih, Memory.getBytes, leNat, Nat.pow_succ, Nat.mul_comm (256 ^ k),
      ← Nat.div_div_eq_div_mul, show ((m.get a).toNat + 256 * leNat (m.getBytes (a + 1) n)) / 256 =
        leNat (m.getBytes (a + 1) n) by omega]

theorem toNat_slot (s : State) (v : Nat) : (s.slot v).toNat = leNat (s.mem.getBytes (slotAddr s.cfg v) 8) := by
  have h := leNat_lt (s.mem.getBytes (slotAddr s.cfg v) 8)
  rw [length_getBytes] at h
  rw [State.slot, BitVec.toNat_ofNat, Nat.mod_eq_of_lt (by simpa using h)]

/-- Reading a slot depends on its eight bytes alone. -/
theorem slot_congr {s t : State} (v : Nat) (hc : s.cfg = t.cfg)
    (h : ∀ a, slotAddr s.cfg v ≤ a → a < slotAddr s.cfg v + 8 → s.mem.get a = t.mem.get a) : s.slot v = t.slot v := by
  rw [State.slot, State.slot, ← hc, Memory.getBytes_congr 8 _ h]

/-- A slot read after a write of that slot gives the word written. -/
theorem slot_setSlot_same (s : State) (v : Nat) (w : DescWord) (h : s.mem.wf) : (s.setSlot v w).slot v = w := by
  have := Memory.getBytes_putBytes (wordBytes w) (slotAddr s.cfg v) h
  rw [length_wordBytes] at this
  rw [State.slot, State.setSlot_cfg, State.setSlot_mem, this, leNat_wordBytes, BitVec.ofNat_toNat, BitVec.setWidth_eq]

/-- A slot write leaves every byte outside the slot alone. -/
theorem get_setSlot_other (s : State) (v : Nat) (w : DescWord) {a : Nat}
    (h : a < slotAddr s.cfg v ∨ slotAddr s.cfg v + 8 ≤ a) : (s.setSlot v w).mem.get a = s.mem.get a :=
  Memory.get_putBytes_other _ _ _ (by simpa using h)

/-- A slot write leaves every other slot alone. -/
theorem slot_setSlot_other (s : State) {u v : Nat} (w : DescWord) (h : u ≠ v) : (s.setSlot v w).slot u = s.slot u :=
  slot_congr u rfl fun a h1 h2 => get_setSlot_other s v w (by
    simp only [State.setSlot_cfg, slotAddr] at *
    omega)

/-- Byte k of a slot after a write of that slot (R41). -/
theorem get_setSlot_same (s : State) (v : Nat) (w : DescWord) (h : s.mem.wf) {k : Nat} (hk : k < 8) :
    (s.setSlot v w).mem.get (slotAddr s.cfg v + k) = wordByte w k := by
  rw [State.setSlot_mem, Memory.get_putBytes_same _ _ k h (by simpa using hk), getElem_wordBytes]

theorem wf_setSlot (s : State) (v : Nat) (w : DescWord) (h : s.mem.wf) : (s.setSlot v w).mem.wf :=
  Memory.wf_putBytes _ _ h

/-- A write of a slot of the table lists only addresses of the table. -/
theorem inTable_setSlot {s : State} {v : Nat} (w : DescWord) (hv : v < s.cfg.nSlots)
    (h : ∀ c ∈ s.mem, inTable s.cfg c.1 = true) : ∀ c ∈ (s.setSlot v w).mem, inTable s.cfg c.1 = true := by
  intro c hc
  rcases Memory.mem_putBytes _ _ hc with hc | hc
  · simp only [length_wordBytes, slotAddr] at hc
    simp only [inTable, decide_eq_true_eq]
    omega
  · exact h c hc

/-! ### All slots -/

/-- INIT's pass changes nothing but memory. -/
theorem setSlots_eq (s : State) (f : Nat → DescWord) : ∀ n, s.setSlots f n = { s with mem := (s.setSlots f n).mem }
  | 0 => rfl
  | n + 1 => by
    rw [State.setSlots, State.setSlot, setSlots_eq s f n]

@[simp] theorem setSlots_cfg (s : State) (f : Nat → DescWord) (n : Nat) : (s.setSlots f n).cfg = s.cfg := by
  rw [setSlots_eq]

theorem wf_setSlots (s : State) (f : Nat → DescWord) (h : s.mem.wf) : ∀ n, (s.setSlots f n).mem.wf
  | 0 => h
  | n + 1 => wf_setSlot _ n (f n) (wf_setSlots s f h n)

/-- After the pass each of the first n slots holds its word, and every later slot what it held. -/
theorem slot_setSlots (s : State) (f : Nat → DescWord) (h : s.mem.wf) (v : Nat) :
    ∀ n, (s.setSlots f n).slot v = if v < n then f v else s.slot v
  | 0 => by simp [State.setSlots]
  | n + 1 => by
    rw [State.setSlots]
    by_cases hv : v = n
    · subst hv
      rw [slot_setSlot_same _ _ _ (wf_setSlots s f h v), if_pos (by omega)]
    · rw [slot_setSlot_other _ _ hv, slot_setSlots s f h v n]
      by_cases h2 : v < n
      · rw [if_pos h2, if_pos (by omega)]
      · rw [if_neg h2, if_neg (by omega)]

/-- The pass leaves every byte outside the first n slots alone. -/
theorem get_setSlots_other (s : State) (f : Nat → DescWord) {a : Nat} :
    ∀ n, (a < s.cfg.tableBase.toNat ∨ s.cfg.tableBase.toNat + 8 * n ≤ a) → (s.setSlots f n).mem.get a = s.mem.get a
  | 0, _ => rfl
  | n + 1, h => by
    rw [State.setSlots, get_setSlot_other _ _ _ (by simp only [setSlots_cfg, slotAddr]; omega),
      get_setSlots_other s f n (by omega)]

theorem inTable_setSlots {s : State} (f : Nat → DescWord) (h : ∀ c ∈ s.mem, inTable s.cfg c.1 = true) :
    ∀ n, n ≤ s.cfg.nSlots → ∀ c ∈ (s.setSlots f n).mem, inTable s.cfg c.1 = true
  | 0, _ => h
  | n + 1, hn => by
    have ih := inTable_setSlots f h n (by omega)
    have := inTable_setSlot (s := s.setSlots f n) (v := n) (f n) (by simpa using hn) (by simpa using ih)
    rw [setSlots_cfg] at this
    exact this

end Sys2Proof.Machine
end

