-- ==== Sys2Proof/Laws/Ops.lean ====
section
/-! SUPPORT. What a command can do: how it starts, answers and faults, each meaning under `State.Ready`, and what
one step is (60_exceptions.md R132; 30_encoding.md R60). -/

namespace Sys2Proof.Machine

/-! ### The shared operations -/

theorem respond_eq (s : State) (r : Response) : s.respond r = .next { s with resp := some r } := rfl

theorem raise_eq (s : State) (f : FaultName) :
    s.raise f = .next { s with fault := faultCode f, resp := some (.fault (faultCode f)) } := rfl

theorem respond_next {s t : State} {r : Response} : s.respond r = .next t ↔ t = { s with resp := some r } := by
  simp [State.respond, eq_comm]

theorem raise_next {s t : State} {f : FaultName} :
    s.raise f = .next t ↔ t = { s with fault := faultCode f, resp := some (.fault (faultCode f)) } := by
  simp [State.raise, eq_comm]

/-- A command of a ready block is performed. -/
theorem perform_ready {s : State} (h : s.Ready) (r : Result) : s.perform r = r := by
  simp [State.perform, h.1, h.2]

/-- A faulted block performs none. -/
theorem perform_faulted {s : State} (hc : configValid s.cfg = true) (hf : s.fault ≠ 0) (r : Result) :
    s.perform r = .fault .blockFaulted := by
  rw [State.perform, if_pos hc, if_neg hf]

theorem perform_badConfig {s : State} (hc : configValid s.cfg = false) (r : Result) :
    s.perform r = .refused .badConfig := by
  simp [State.perform, hc]

/-- A command answers a next state only of a ready block, and then it is that of its body. -/
theorem perform_next {s t : State} {r : Result} : s.perform r = .next t ↔ s.Ready ∧ r = .next t := by
  unfold State.perform State.Ready
  split
  · split <;> simp_all
  · simp_all

/-! ### What each command can answer -/

theorem execEncode_next {s t : State} : execEncode s = .next t ↔
    s.Ready ∧ t = { s with resp := some (.word (encodeGate s.portF)) } := by
  rw [execEncode, perform_next, respond_next]

theorem execDecode_next {s t : State} : execDecode s = .next t ↔
    s.Ready ∧ t = { s with resp := some (.fields (gateFields s.portW) (rsvdNonzero s.portW)) } := by
  rw [execDecode, perform_next, respond_next]
  rfl

theorem execInstall_next {v : Nat} {s t : State} : execInstall v s = .next t ↔ s.Ready ∧
    ((s.cfg.nSlots ≤ v ∧ s.raise .slotOutOfRange = .next t) ∨
      (v < s.cfg.nSlots ∧ t = { s.setSlot v (encodeGate s.portF) with resp := some .done })) := by
  rw [execInstall, perform_next]
  refine and_congr_right fun _ => ?_
  split
  · next h => exact ⟨fun e => .inl ⟨h, e⟩, fun e => e.elim And.right fun e => absurd h (Nat.not_le.2 e.1)⟩
  · next h =>
    rw [respond_next]
    exact ⟨fun e => .inr ⟨Nat.not_le.1 h, e⟩, fun e => e.elim (fun e => absurd e.1 h) And.right⟩

theorem execRdslot_next {v : Nat} {s t : State} : execRdslot v s = .next t ↔ s.Ready ∧
    ((s.cfg.nSlots ≤ v ∧ s.raise .slotOutOfRange = .next t) ∨
      (v < s.cfg.nSlots ∧ t = { s with resp := some (.word (s.slot v)) })) := by
  rw [execRdslot, perform_next]
  refine and_congr_right fun _ => ?_
  split
  · next h => exact ⟨fun e => .inl ⟨h, e⟩, fun e => e.elim And.right fun e => absurd h (Nat.not_le.2 e.1)⟩
  · next h =>
    rw [respond_next]
    exact ⟨fun e => .inr ⟨Nat.not_le.1 h, e⟩, fun e => e.elim (fun e => absurd e.1 h) And.right⟩

/-- The state INIT leaves when it does not fault (R93, R94). -/
def initialised (s : State) : State :=
  { s with
    mem := (s.setSlots (initWord s.cfg) s.cfg.nSlots).mem
    phase := nextPhaseInit s.phase
    resp := some .done }

theorem execInit_next {s t : State} : execInit s = .next t ↔ s.Ready ∧
    ((s.ie = true ∧ s.raise .initWhileEnabled = .next t) ∨ (s.ie = false ∧ t = initialised s)) := by
  rw [execInit, perform_next]
  refine and_congr_right fun _ => ?_
  cases h : s.ie
  · simp only [Bool.false_eq_true, if_false, false_and, true_and, false_or]
    rw [respond_next, setSlots_eq]
    rfl
  · simp

theorem execLoad_next {s t : State} : execLoad s = .next t ↔ s.Ready ∧
    ((s.phase = .uninitialized ∧ s.raise .loadBeforeInit = .next t) ∨
      (s.phase ≠ .uninitialized ∧ s.ie = true ∧ s.raise .loadWhileEnabled = .next t) ∨
      (s.phase ≠ .uninitialized ∧ s.ie = false ∧
        t = { s.installIdtr (loadImage s.cfg) with resp := some (.idtr (loadImage s.cfg).image) })) := by
  rw [execLoad, perform_next]
  refine and_congr_right fun _ => ?_
  by_cases hp : s.phase = .uninitialized <;> cases hi : s.ie <;> simp [hp, respond_next]

theorem execSetie_next {b : Bool} {s t : State} : execSetie b s = .next t ↔ s.Ready ∧
    ((b = true ∧ s.phase ≠ .active ∧ s.raise .enableBeforeLoad = .next t) ∨
      ((b = false ∨ s.phase = .active) ∧ t = { s with ie := b, resp := some .done })) := by
  rw [execSetie, perform_next]
  refine and_congr_right fun _ => ?_
  by_cases hp : s.phase = .active <;> cases b <;> simp [hp, respond_next, State.setIe]

theorem execReg_next {i : Nat} {s t : State} : execReg i s = .next t ↔ s.Ready ∧
    ((s.phase = .uninitialized ∧ s.raise .registerBeforeInit = .next t) ∨
      (s.phase ≠ .uninitialized ∧ validIrq s.cfg i = false ∧ t = { s with resp := some (.status .invalidVector) }) ∨
      (s.phase ≠ .uninitialized ∧ validIrq s.cfg i = true ∧ (s.regAt i).bound = true ∧
        t = { s with resp := some (.status .alreadyBound) }) ∨
      (s.phase ≠ .uninitialized ∧ validIrq s.cfg i = true ∧ (s.regAt i).bound = false ∧
        t = { s.setReg i ⟨true, s.portH, s.portT⟩ with resp := some (.status .ok) })) := by
  rw [execReg, perform_next]
  refine and_congr_right fun _ => ?_
  by_cases hp : s.phase = .uninitialized <;> cases hv : validIrq s.cfg i <;> cases hb : (s.regAt i).bound <;>
    simp [hp, respond_next]

theorem execDisp_next {i : Nat} {s t : State} : execDisp i s = .next t ↔ s.Ready ∧
    ((i ∈ s.inService ∧ s.raise .reentrantDispatch = .next t) ∨
      (i ∉ s.inService ∧ s.isBound i = true ∧ t = { s.pushService i with
        resp := some (.call (s.regAt i).handler (s.regAt i).tag s.portC) }) ∨
      (i ∉ s.inService ∧ s.isBound i = false ∧ t = { s with resp := some (.drop i) })) := by
  rw [execDisp, perform_next]
  refine and_congr_right fun _ => ?_
  by_cases hi : i ∈ s.inService <;> cases hb : s.isBound i <;> simp [hi, respond_next]

theorem execRet_next {i : Nat} {s t : State} : execRet i s = .next t ↔ s.Ready ∧
    ((s.topService = some i ∧ t = { s.popService with resp := some .done }) ∨
      (s.topService ≠ some i ∧ s.raise .retireMismatch = .next t)) := by
  rw [execRet, perform_next]
  refine and_congr_right fun _ => ?_
  by_cases h : s.topService = some i <;> simp [h, respond_next]

theorem execDlv_next {v : Nat} {s t : State} : execDlv v s = .next t ↔ s.Ready ∧
    (((s.idtrValid = false ∨ s.idtr.limit.toNat < 8 * v + 7 ∨ (gateFields (s.slot v)).p = 0) ∧
        s.raise .undefinedDelivery = .next t) ∨
      (s.idtrValid = true ∧ 8 * v + 7 ≤ s.idtr.limit.toNat ∧ (gateFields (s.slot v)).p ≠ 0 ∧
        gateModelled (s.slot v) = false ∧ s.raise .unmodelledGate = .next t) ∨
      (s.idtrValid = true ∧ 8 * v + 7 ≤ s.idtr.limit.toNat ∧ (gateFields (s.slot v)).p ≠ 0 ∧
        gateModelled (s.slot v) = true ∧ t = { s with resp := some (gateEntry (gateFields (s.slot v))) })) := by
  rw [execDlv, perform_next]
  refine and_congr_right fun _ => ?_
  simp only [decodeGate]
  rcases Nat.lt_or_ge s.idtr.limit.toNat (8 * v + 7) with hl | hl <;> cases hv : s.idtrValid <;>
    by_cases hp : (gateFields (s.slot v)).p = 0#1 <;> cases hm : gateModelled (s.slot v) <;>
    simp [hl, hp, hv, respond_next, Nat.not_lt.2, Nat.not_le.2]

/-! ### One step -/

theorem step_nil {s : State} (h : s.pending = []) : step s = .next s.idle := by
  simp [step, h]

theorem step_legal {s : State} {r : Request} {rest : List Request} {i : Instr} (h : s.pending = r :: rest)
    (hd : decode r.cw = .ok i) : step s = exec i (s.accept r rest) := by
  simp [step, h, hd]

theorem step_illegal {s : State} {r : Request} {rest : List Request} {e : IllegalWord} (h : s.pending = r :: rest)
    (hd : decode r.cw = .error e) : step s = (s.accept r rest).illegalWord := by
  simp [step, h, hd]

/-- A step that answers a next state waited, performed a command, or raised IllegalCommand. -/
theorem step_next {s t : State} (h : step s = .next t) :
    (s.pending = [] ∧ t = s.idle) ∨
    (∃ r rest, s.pending = r :: rest ∧
      ((∃ i, decode r.cw = .ok i ∧ exec i (s.accept r rest) = .next t) ∨
        (∃ e, decode r.cw = .error e ∧ (s.accept r rest).Ready ∧
          (s.accept r rest).raise .illegalCommand = .next t))) := by
  cases hp : s.pending with
  | nil =>
    rw [step_nil hp] at h
    injection h with h
    exact .inl ⟨rfl, h.symm⟩
  | cons r rest =>
    refine .inr ⟨r, rest, rfl, ?_⟩
    cases hd : decode r.cw with
    | ok i => exact .inl ⟨i, rfl, step_legal hp hd ▸ h⟩
    | error e =>
      rw [step_illegal hp hd] at h
      exact .inr ⟨e, rfl, perform_next.1 h⟩

end Sys2Proof.Machine
end

