-- ==== Sys2Proof/Laws/PerInstr.lean ====
section
/-! SUPPORT. Per command: the word the encoder gives a well-formed command carries the command's fields where
30_encoding.md R61 puts them, `rsvd` zero. The family is `EncodedFields`; its statement is about the command as
data, never about what it does. -/

namespace Sys2Proof.Laws.EncodedFields

/-- The field `op` of each command (R64). -/
def opOf : Instr → Nat
  | .encode    => 0x1
  | .decode    => 0x2
  | .install _ => 0x3
  | .rdslot _  => 0x4
  | .init      => 0x5
  | .load      => 0x6
  | .setie _   => 0x7
  | .reg _     => 0x8
  | .disp _    => 0x9
  | .ret _     => 0xA
  | .dlv _     => 0xB

/-- The field `idx`, 0 where the row has none (R64, R65). -/
def idxOf : Instr → Nat
  | .encode    => 0
  | .decode    => 0
  | .install v => v
  | .rdslot v  => v
  | .init      => 0
  | .load      => 0
  | .setie _   => 0
  | .reg i     => i
  | .disp i    => i
  | .ret i     => i
  | .dlv v     => v

/-- The field `b`, 0 where the row has none (R64, R65). -/
def bOf : Instr → Bool
  | .encode    => false
  | .decode    => false
  | .install _ => false
  | .rdslot _  => false
  | .init      => false
  | .load      => false
  | .setie b   => b
  | .reg _     => false
  | .disp _    => false
  | .ret _     => false
  | .dlv _     => false

def Statement (i : Instr) : Prop :=
  i.wellFormed = true → opField (Sys2Proof.encode i) = opOf i ∧ idxField (Sys2Proof.encode i) = idxOf i ∧
    bField (Sys2Proof.encode i) = bOf i ∧ rsvdField (Sys2Proof.encode i) = 0

theorem encode : Statement .encode := fun _ => fields_cmdWord false (by omega) (by omega)
theorem decode : Statement .decode := fun _ => fields_cmdWord false (by omega) (by omega)
theorem install (v : Nat) : Statement (.install v) := fun h =>
  fields_cmdWord false (by omega) (of_decide_eq_true h)
theorem rdslot (v : Nat) : Statement (.rdslot v) := fun h =>
  fields_cmdWord false (by omega) (of_decide_eq_true h)
theorem init : Statement .init := fun _ => fields_cmdWord false (by omega) (by omega)
theorem load : Statement .load := fun _ => fields_cmdWord false (by omega) (by omega)
theorem setie (b : Bool) : Statement (.setie b) := fun _ => fields_cmdWord b (by omega) (by omega)
theorem reg (i : Nat) : Statement (.reg i) := fun h =>
  fields_cmdWord false (by omega) (of_decide_eq_true h)
theorem disp (i : Nat) : Statement (.disp i) := fun h =>
  fields_cmdWord false (by omega) (of_decide_eq_true h)
theorem ret (i : Nat) : Statement (.ret i) := fun h =>
  fields_cmdWord false (by omega) (of_decide_eq_true h)
theorem dlv (v : Nat) : Statement (.dlv v) := fun h =>
  fields_cmdWord false (by omega) (of_decide_eq_true h)

end Sys2Proof.Laws.EncodedFields
end

