-- ==== Sys2Proof/Tests/Slice0.lean ====
section
/-! SUPPORT. The model's own tests: words written out from 30_encoding.md R64, one step at a time against
95_test_vectors.md sections 2 and 3, and a witness for the hypotheses of every obligation that has some. -/

namespace Sys2Proof.Tests

open Sys2Proof Sys2Proof.Machine

/-! ### States and readings the tests use -/

/-- After reset, configuration E4. -/
def fresh : State := State.reset

/-- The gate of T4. -/
def gateT4 : GateFields := ⟨0x00100180, 0x0008, 7, 1, 3, 1⟩

/-- E4 after INIT, less the table. -/
def built : State := { fresh with phase := .built }

/-- E4 after INIT and LOAD, less the table. -/
def active : State := { fresh with phase := .active, idtrValid := true, idtr := ⟨0x001F, 0x00102000⟩ }

/-- Active with interrupts enabled. -/
def enabled : State := { active with ie := true }

/-- Active with gate word `w` in slot `v`. -/
def holding (v : Nat) (w : DescWord) : State := active.setSlot v w

/-- Built with G2's binding of identifier 1. -/
def bound : State := { built with reg := [RegEntry.unbound, ⟨true, 0x00103000, 0x4B424400⟩, RegEntry.unbound,
  RegEntry.unbound] }

/-- `bound` with the operands of another REG on the ports. -/
def boundAgain : State := { bound with ports := { Ports.idle with h := 0x00104000, t := 0x53505552, c := ⟨3⟩ } }

/-- Identifiers 0 and 1 bound, both in service, 1 innermost. -/
def nested : State := { built with
  reg := [⟨true, 0x00103000, 0x54494D52⟩, ⟨true, 0x00103100, 0x4B424400⟩, RegEntry.unbound, RegEntry.unbound]
  inService := [0, 1] }

/-- Identifier 1 in service alone. -/
def serving : State := { bound with inService := [1] }

/-- A block that has faulted. -/
def faulted : State := { fresh with fault := 4 }

/-- The state with one command word still to be issued. -/
def asked (s : State) (cw : CmdWord) : State := { s with pending := [⟨cw, Ports.idle⟩] }

/-- The largest table, ending at the last address (T7). -/
def bigConfig : Config := { Config.e4 with nSlots := 256, tableBase := 0xFFFFF800, serviced := [] }

/-- The smallest table, at address 0, its only slot serviced (T8); the registry at its top end. -/
def smallConfig : Config :=
  { Config.e4 with nSlots := 1, tableBase := 0, serviced := [(0, 0x1000)], irqBase := 255, nIrq := 1, tagW := 1 }

/-- A table one byte too high. -/
def wrapConfig : Config := { bigConfig with tableBase := 0xFFFFF801 }

/-- The next state of an outcome. -/
def nextOf : Result → Option State
  | .next t => some t
  | .fault _ => none
  | .refused _ => none

/-- The response of an outcome. -/
def respOf (r : Result) : Option Response := (nextOf r).bind State.resp

/-- The outcome is a next state. -/
def runs (r : Result) : Prop := ∃ t, r = .next t

theorem runs_of_isSome {r : Result} (h : (nextOf r).isSome = true) : runs r := by
  cases r with
  | next t => exact ⟨t, rfl⟩
  | fault f => simp [nextOf] at h
  | refused f => simp [nextOf] at h

/-! ### WellFormed: `idx` has eight bits (R61) -/

theorem test_wellFormed_accepts_255 :
    (Instr.install 255).wellFormed ∧ (Instr.rdslot 255).wellFormed ∧ (Instr.reg 255).wellFormed ∧
    (Instr.disp 255).wellFormed ∧ (Instr.ret 255).wellFormed ∧ (Instr.dlv 255).wellFormed := by decide

theorem test_wellFormed_refuses_install_256 : ¬ (Instr.install 256).wellFormed := by decide
theorem test_wellFormed_refuses_rdslot_256 : ¬ (Instr.rdslot 256).wellFormed := by decide
theorem test_wellFormed_refuses_reg_256 : ¬ (Instr.reg 256).wellFormed := by decide
theorem test_wellFormed_refuses_disp_256 : ¬ (Instr.disp 256).wellFormed := by decide
theorem test_wellFormed_refuses_ret_256 : ¬ (Instr.ret 256).wellFormed := by decide
theorem test_wellFormed_refuses_dlv_256 : ¬ (Instr.dlv 256).wellFormed := by decide

/-! ### Decoding: one word per row, bit by bit from R64's patterns (rsvd, b, idx, op) -/

theorem test_decode_encode : decode 0b0000000000000000000_0_00000000_0001 = .ok .encode := by decide
theorem test_decode_decode : decode 0b0000000000000000000_0_00000000_0010 = .ok .decode := by decide
theorem test_decode_install : decode 0b0000000000000000000_0_10100101_0011 = .ok (.install 0xA5) := by decide
theorem test_decode_rdslot : decode 0b0000000000000000000_0_00000001_0100 = .ok (.rdslot 1) := by decide
theorem test_decode_init : decode 0b0000000000000000000_0_00000000_0101 = .ok .init := by decide
theorem test_decode_load : decode 0b0000000000000000000_0_00000000_0110 = .ok .load := by decide
theorem test_decode_setie_1 : decode 0b0000000000000000000_1_00000000_0111 = .ok (.setie true) := by decide
theorem test_decode_setie_0 : decode 0b0000000000000000000_0_00000000_0111 = .ok (.setie false) := by decide
theorem test_decode_reg : decode 0b0000000000000000000_0_10000000_1000 = .ok (.reg 128) := by decide
theorem test_decode_disp : decode 0b0000000000000000000_0_11111111_1001 = .ok (.disp 255) := by decide
theorem test_decode_ret : decode 0b0000000000000000000_0_01111111_1010 = .ok (.ret 127) := by decide
theorem test_decode_dlv : decode 0b0000000000000000000_0_00100001_1011 = .ok (.dlv 33) := by decide

/-- W1 to W7. -/
theorem test_decode_illegal :
    decode 0x00000000 = .error .noSuchOp ∧ decode 0x0000000C = .error .noSuchOp ∧
    decode 0x0000000F = .error .noSuchOp ∧ decode 0x00000011 = .error .strayIndex ∧
    decode 0x00001003 = .error .strayEnable ∧ decode 0x00002007 = .error .reservedBits ∧
    decode 0x80000009 = .error .reservedBits := by decide

/-- W8 to W10. -/
theorem test_decode_legal : decode 0x00000FF9 = .ok (.disp 255) ∧ decode 0x00001007 = .ok (.setie true) ∧
    decode 0x0000021B = .ok (.dlv 33) := by decide

/-- The words of the programs of section 3. -/
theorem test_encode_words :
    encode (.install 2) = 0x00000023 ∧ encode (.rdslot 2) = 0x00000024 ∧ encode .load = 0x00000006 ∧
    encode (.setie true) = 0x00001007 ∧ encode (.reg 9) = 0x00000098 ∧ encode (.disp 9) = 0x00000099 ∧
    encode (.ret 1) = 0x0000001A ∧ encode (.dlv 3) = 0x0000003B := by decide

theorem test_decodeTableWord : decodeTableWord 32 0x00000023 = some (.install 2) ∧
    decodeTableWord 32 0x80000009 = none ∧ decodeTableWord 16 0x80000009 = some (.disp 0) ∧
    decodeTableWord 64 0x00000001 = none := by decide

/-- The word placed after reset is the one the next step performs. -/
theorem test_withFetchWord : step (State.reset.withFetchWord 32 0x00000005) = exec .init State.reset := rfl

/-! ### The commands, at most two theorems each -/

/-- V1 to V9. -/
theorem test_encode :
    encodeGate ⟨0x00101234, 0x0008, 6, 1, 0, 1⟩ = 0x00108E0000081234 ∧
    encodeGate ⟨0xDEADBEEF, 0x0010, 7, 1, 3, 1⟩ = 0xDEADEF000010BEEF ∧
    encodeGate ⟨0, 0, 0, 0, 0, 0⟩ = 0x0000000000000000 ∧
    encodeGate ⟨0xFFFFFFFF, 0xFFFF, 7, 1, 3, 1⟩ = 0xFFFFEF00FFFFFFFF ∧
    encodeGate ⟨0x12345678, 0x0018, 6, 0, 0, 0⟩ = 0x1234060000185678 ∧
    encodeGate ⟨0x00100110, 0x0008, 6, 1, 3, 1⟩ = 0x0010EE0000080110 ∧
    encodeGate ⟨0x0000FFFF, 0x0008, 6, 1, 0, 1⟩ = 0x00008E000008FFFF ∧
    encodeGate ⟨0xFFFF0000, 0x0008, 7, 1, 0, 1⟩ = 0xFFFF8F0000080000 ∧
    encodeGate ⟨0x00010000, 0x0000, 5, 0, 2, 1⟩ = 0x0001C50000000000 := by decide

/-- V10 to V15. -/
theorem test_encode_pins :
    encodeGate ⟨0xFFFFFFFF, 0, 0, 0, 0, 0⟩ = 0xFFFF00000000FFFF ∧
    encodeGate ⟨0, 0xFFFF, 0, 0, 0, 0⟩ = 0x00000000FFFF0000 ∧
    encodeGate ⟨0, 0, 7, 0, 0, 0⟩ = 0x0000070000000000 ∧
    encodeGate ⟨0, 0, 0, 1, 0, 0⟩ = 0x0000080000000000 ∧
    encodeGate ⟨0, 0, 0, 0, 3, 0⟩ = 0x0000600000000000 ∧
    encodeGate ⟨0, 0, 0, 0, 0, 1⟩ = 0x0000800000000000 := by decide

/-- V16 to V22. -/
theorem test_decode :
    decodeGate 0x00108E0000081234 = (⟨0x00101234, 0x0008, 6, 1, 0, 1⟩, false) ∧
    decodeGate 0x00109E0000081234 = (⟨0x00101234, 0x0008, 6, 1, 0, 1⟩, true) ∧
    decodeGate 0xFFFFFFFFFFFFFFFF = (⟨0xFFFFFFFF, 0xFFFF, 7, 1, 3, 1⟩, true) ∧
    decodeGate 0x0000000100000000 = (⟨0, 0, 0, 0, 0, 0⟩, true) ∧
    decodeGate 0x0000800000000000 = (⟨0, 0, 0, 0, 0, 1⟩, false) ∧
    decodeGate 0x0000000000008E00 = (⟨0x00008E00, 0, 0, 0, 0, 0⟩, false) ∧
    decodeGate 0x0000008E00000000 = (⟨0, 0, 0, 0, 0, 0⟩, true) := by decide

/-- The bytes of V2, lowest address first. -/
theorem test_wordBytes : wordBytes 0xDEADEF000010BEEF = [0xEF, 0xBE, 0x10, 0x00, 0x00, 0xEF, 0xAD, 0xDE] := by decide

/-- T4, and that its byte 5 lies at 0x00102015. -/
theorem test_install : (nextOf (exec (.install 2) { fresh with ports := { Ports.idle with f := gateT4 } })).map
    (fun t => (t.resp, t.slot 2, t.imageByte 0x00102015)) =
    some (some .done, 0x0010EF0000080180, some 0xEF) := by decide

/-- T2. -/
theorem test_install_out_of_range : respOf (exec (.install 4) fresh) = some (.fault 2) := by decide

/-- T1, and the slot T4 wrote. -/
theorem test_rdslot : respOf (exec (.rdslot 0) fresh) = some (.word 0) ∧
    respOf (exec (.rdslot 2) (holding 2 0x0010EF0000080180)) = some (.word 0x0010EF0000080180) := by decide

/-- T3. -/
theorem test_rdslot_out_of_range : respOf (exec (.rdslot 255) fresh) = some (.fault 2) := by decide

/-- T5, and T12's erased slot: INIT writes 0 to a slot that is not serviced. -/
theorem test_init : (nextOf (exec .init (fresh.setSlot 2 0x0010EF0000080180))).map
    (fun t => (t.phase, [t.slot 0, t.slot 1, t.slot 2, t.slot 3])) =
    some (.built, [0x00108E0000080100, 0x00108E0000080110, 0, 0x00108E0000080130]) := by decide

/-- T10; T13's slot 0 under KERNEL_DPL = 3. -/
theorem test_init_enabled : respOf (exec .init enabled) = some (.fault 3) ∧
    (nextOf (exec .init { fresh with cfg := { Config.e4 with kernelDpl := 3 } })).map (fun t => t.slot 0) =
      some 0x0010EE0000080100 := by decide

/-- T6, T7 and T8. -/
theorem test_load : respOf (exec .load built) = some (.idtr 0x00102000001F) ∧
    imageBytes 0x00102000001F = [0x1F, 0x00, 0x00, 0x20, 0x10, 0x00] ∧
    respOf (exec .load { built with cfg := bigConfig }) = some (.idtr 0xFFFFF80007FF) ∧
    respOf (exec .load { built with cfg := smallConfig }) = some (.idtr 0x000000000007) := by decide

/-- T9 and T11. -/
theorem test_load_faults : respOf (exec .load fresh) = some (.fault 4) ∧
    respOf (exec .load enabled) = some (.fault 5) := by decide

/-- X9 and X10. -/
theorem test_setie : (nextOf (exec (.setie false) fresh)).map State.ie = some false ∧
    (nextOf (exec (.setie true) active)).map State.ie = some true := by decide

/-- X8. -/
theorem test_setie_early : respOf (exec (.setie true) built) = some (.fault 6) := by decide

/-- G2 and G13. -/
theorem test_reg : (nextOf (exec (.reg 1) { built with ports := { Ports.idle with h := 0x00103000, t := 0x4B424400 } })).map
      (fun t => (t.resp, t.regAt 1)) = some (some (.status .ok), ⟨true, 0x00103000, 0x4B424400⟩) ∧
    (nextOf (exec (.reg 2) built)).map (fun t => t.regAt 2) = some ⟨true, 0, 0⟩ := by decide

/-- G1, G3 and G5. -/
theorem test_reg_rejections : respOf (exec (.reg 0) fresh) = some (.fault 7) ∧
    (nextOf (exec (.reg 1) boundAgain)).map (fun t => (t.resp, t.reg)) =
      some (some (.status .alreadyBound), boundAgain.reg) ∧
    respOf (exec (.reg 9) built) = some (.status .invalidVector) := by decide

/-- G8, G6 and G7. -/
theorem test_disp : (nextOf (exec (.disp 1) bound)).map (fun t => (t.resp, t.inService)) =
      some (some (.call 0x00103000 0x4B424400 ⟨0⟩), [1]) ∧
    (nextOf (exec (.disp 2) bound)).map (fun t => (t.resp, t.inService)) = some (some (.drop 2), []) ∧
    respOf (exec (.disp 9) bound) = some (.drop 9) := by decide

/-- G9. -/
theorem test_disp_reentrant : respOf (exec (.disp 1) serving) = some (.fault 8) := by decide

/-- G10, and R111's example. -/
theorem test_ret : (nextOf (exec (.ret 1) serving)).map State.inService = some [] ∧
    (nextOf (exec (.ret 1) nested)).map State.inService = some [0] := by decide

/-- G11, G12 and G14. -/
theorem test_ret_mismatch : respOf (exec (.ret 1) bound) = some (.fault 9) ∧
    (nextOf (exec (.ret 0) nested)).map (fun t => (t.resp, t.inService)) = some (some (.fault 9), [0, 1]) := by decide

/-- X2 and X7. -/
theorem test_dlv : respOf (exec (.dlv 1) (holding 1 0x00108E0000080110)) = some (.entry 0x00100110 0x0008 6 0) ∧
    respOf (exec (.dlv 2) (holding 2 0x0010EF0000080180)) = some (.entry 0x00100180 0x0008 7 3) := by decide

/-- X1, X3, X4, then X5, X6 and a present gate with bit 44 set. -/
theorem test_dlv_faults : respOf (exec (.dlv 0) built) = some (.fault 10) ∧
    respOf (exec (.dlv 2) active) = some (.fault 10) ∧ respOf (exec (.dlv 4) active) = some (.fault 10) ∧
    respOf (exec (.dlv 2) (holding 2 (encodeGate ⟨0x12345678, 0x0018, 6, 0, 0, 1⟩))) = some (.fault 11) ∧
    respOf (exec (.dlv 2) (holding 2 (encodeGate ⟨1, 0x0008, 5, 1, 0, 1⟩))) = some (.fault 11) ∧
    respOf (exec (.dlv 2) (holding 2 0x00109E0000081234)) = some (.fault 11) := by decide

/-! ### Steps, configurations, the assembler -/

/-- P4's second line: a faulted block has no step; with nothing issued it still waits. -/
theorem test_step_faulted : step (asked faulted 0x00000005) = .fault .blockFaulted ∧
    nextOf (step faulted) = some faulted := ⟨rfl, by decide⟩

/-- W1 as a step. -/
theorem test_step_illegal : respOf (step (asked fresh 0)) = some (.fault 1) := by decide

/-- R45: one byte too high is refused, the last address is not. -/
theorem test_config_edge : exec .encode { fresh with cfg := wrapConfig } = .refused .badConfig ∧
    respOf (exec .encode { fresh with cfg := bigConfig }) = some (.word 0) := ⟨rfl, by decide⟩

/-- R73: the example of R82 as a line. -/
theorem test_assemble_line :
    assembleLine Config.e4 "ENCODE off=0x00101234, sel=0x0008, type=6, size=1, dpl=0, p=1 ; V1" =
      .ok (some ⟨0x00000001, { Ports.idle with f := ⟨0x00101234, 0x0008, 6, 1, 0, 1⟩ }⟩) := by decide

/-- R73: an operand too wide, a missing operand, an unknown mnemonic. -/
theorem test_assemble_refusals : assembleLine Config.e4 "RDSLOT 256" = .error .doesNotFit ∧
    assembleLine Config.e4 "REG 1, handler=1" = .error .missingOperand ∧
    assembleLine Config.e4 "NOP" = .error .unknownMnemonic := by decide

/-- R74 as in P2 and P3: EI, and TGATE's command word. -/
theorem test_assemble_pseudo : assembleLine Config.e4 "EI" = .ok (some ⟨0x00001007, Ports.idle⟩) ∧
    assembleLine Config.e4 "TGATE 2, 0x00100180, 3" =
      .ok (some ⟨0x00000023, { Ports.idle with f := gateT4 }⟩) := by decide

/-- R172: a run ends well at reset with nothing issued, not in a handler, not after a fault. -/
theorem test_endsWell : fresh.endsWell = true ∧ serving.endsWell = false ∧ faulted.endsWell = false := by decide

/-! ### Witnesses: a state and operands meeting the hypotheses of each statement, clause by clause -/

theorem ready_fresh : fresh.Ready := ⟨by decide, rfl⟩
theorem ready_built : built.Ready := ⟨by decide, rfl⟩
theorem ready_active : active.Ready := ⟨by decide, rfl⟩
theorem ready_enabled : enabled.Ready := ⟨by decide, rfl⟩
theorem ready_bound : bound.Ready := ⟨by decide, rfl⟩
theorem ready_nested : nested.Ready := ⟨by decide, rfl⟩
theorem ready_serving : serving.Ready := ⟨by decide, rfl⟩

/-- Both ends of the bit range, inside and outside the mask. -/
theorem witness_ReservedBitsAreNeverEncoded : (0 : Nat) < 64 ∧ 63 < 64 ∧
    rsvdMask.getLsbD 31 = false ∧ rsvdMask.getLsbD 32 = true ∧ rsvdMask.getLsbD 39 = true ∧
    rsvdMask.getLsbD 40 = false ∧ rsvdMask.getLsbD 43 = false ∧ rsvdMask.getLsbD 44 = true ∧
    rsvdMask.getLsbD 45 = false := by decide

/-- (d): the word with every field bit set. (e): two pairs that differ in reserved bits only, one of each kind. -/
theorem witness_GateCodecLaws : (0xFFFFEF00FFFFFFFF : DescWord) &&& rsvdMask = 0 ∧
    (0 : DescWord) &&& ~~~rsvdMask = rsvdMask &&& ~~~rsvdMask ∧ (decodeGate 0).2 ≠ (decodeGate rsvdMask).2 ∧
    (0x0000000100000000 : DescWord) &&& ~~~rsvdMask = rsvdMask &&& ~~~rsvdMask ∧
    (decodeGate 0x0000000100000000).2 = (decodeGate rsvdMask).2 := by decide

/-- For each field a change of all its bits, and of all reserved bits. -/
theorem witness_GateFieldsAreIndependent :
    (0xFFFF00000000FFFF : DescWord) &&& ~~~0xFFFF00000000FFFF = 0 ∧
    (0x00000000FFFF0000 : DescWord) &&& ~~~0x00000000FFFF0000 = 0 ∧
    (0x0000070000000000 : DescWord) &&& ~~~0x0000070000000000 = 0 ∧
    (0x0000080000000000 : DescWord) &&& ~~~0x0000080000000000 = 0 ∧
    (0x0000600000000000 : DescWord) &&& ~~~0x0000600000000000 = 0 ∧
    (0x0000800000000000 : DescWord) &&& ~~~0x0000800000000000 = 0 ∧
    rsvdMask &&& ~~~rsvdMask = 0 := by decide

theorem witness_EncodeRespondsWithTheWord : ∃ s : State, s.Ready ∧ s.ports.f = ⟨0xFFFFFFFF, 0xFFFF, 7, 1, 3, 1⟩ :=
  ⟨{ enabled with ports := { Ports.idle with f := ⟨0xFFFFFFFF, 0xFFFF, 7, 1, 3, 1⟩ } }, ⟨by decide, rfl⟩, rfl⟩

theorem witness_DecodeRespondsWithTheFields : ∃ s : State, s.Ready ∧ s.ports.w = 0x00109E0000081234 :=
  ⟨{ fresh with ports := { Ports.idle with w := 0x00109E0000081234 } }, ⟨by decide, rfl⟩, rfl⟩

theorem witness_EncodedCommandsDecodeBack : (Instr.install 0).wellFormed = true ∧ (Instr.dlv 255).wellFormed = true ∧
    (Instr.setie true).wellFormed = true := by decide

theorem witness_DecodedWordsAreTheirEncodings : decode 0x00000FFB = .ok (.dlv 255) ∧ decode 0x00001007 = .ok (.setie true) ∧
    decode 0x00000003 = .ok (.install 0) := by decide

theorem witness_IllegalWordsRaiseIllegalCommand : (asked fresh 0x00000FFC).Ready ∧
    (asked fresh 0x00000FFC).pending = [⟨0x00000FFC, Ports.idle⟩] ∧ decode 0x00000FFC = .error .noSuchOp :=
  ⟨⟨by decide, rfl⟩, rfl, by decide⟩

theorem witness_StepPerformsTheDecodedCommand : (asked fresh 0x00000005).pending = [⟨0x00000005, Ports.idle⟩] ∧
    decode 0x00000005 = .ok .init := ⟨rfl, by decide⟩

/-- A waiting block, one of them faulted. -/
theorem witness_BlockWaitsForACommand : fresh.pending = [] ∧ faulted.pending = [] := ⟨rfl, rfl⟩

/-- P4, its second command still pending. -/
theorem witness_FaultStopsTheBlock : ∃ s t : State, s.Ready ∧ step s = .next t ∧ t.fault ≠ 0 ∧ t.pending ≠ [] :=
  ⟨{ fresh with pending := [⟨6, Ports.idle⟩, ⟨5, Ports.idle⟩] },
    { fresh with pending := [⟨5, Ports.idle⟩], fault := 4, resp := some (.fault 4) },
    ⟨by decide, rfl⟩, rfl, by decide, by decide⟩

/-- One state and command for each of the codes 2 to 11, and for a command that raises none. -/
theorem witness_FaultCodesHaveTheirCauses :
    respOf (exec (.install 4) fresh) = some (.fault 2) ∧ respOf (exec .init enabled) = some (.fault 3) ∧
    respOf (exec .load fresh) = some (.fault 4) ∧ respOf (exec .load enabled) = some (.fault 5) ∧
    respOf (exec (.setie true) built) = some (.fault 6) ∧ respOf (exec (.reg 1) fresh) = some (.fault 7) ∧
    respOf (exec (.disp 1) serving) = some (.fault 8) ∧ respOf (exec (.ret 0) nested) = some (.fault 9) ∧
    respOf (exec (.dlv 3) active) = some (.fault 10) ∧
    respOf (exec (.dlv 3) (holding 3 0x0000800000000000)) = some (.fault 11) ∧
    respOf (exec (.install 3) fresh) = some .done ∧ respOf (step (asked fresh 12)) = some (.fault 1) := by decide

/-- A faulted block asked for a step; an illegal word; LOAD of an unreachable state to which both its faults apply; a
gate that is not modelled, present and not. -/
theorem witness_FirstFaultWins :
    (configValid (asked faulted 5).cfg = true ∧ (asked faulted 5).fault ≠ 0 ∧ (asked faulted 5).pending ≠ []) ∧
    respOf (step (asked fresh 0)) = some (.fault 1) ∧
    (configValid fresh.cfg = true ∧ ({ fresh with ie := true } : State).phase = .uninitialized ∧
      respOf (exec .load { fresh with ie := true }) = some (.fault 4)) ∧
    (gateModelled ((holding 3 0x0000800000000000).slot 3) = false ∧
      respOf (exec (.dlv 3) (holding 3 0x0000800000000000)) = some (.fault 11)) ∧
    (gateModelled (active.slot 3) = false ∧ respOf (exec (.dlv 3) active) = some (.fault 10)) := by decide

/-- The last slot of the largest table; its last byte is the last address. -/
theorem witness_TableByteImage : (255 : Nat) < bigConfig.nSlots ∧ (7 : Nat) < 8 ∧
    bigConfig.tableBase.toNat + 8 * 255 + 7 = 0xFFFFFFFF := by decide

/-- The last slot of E4 and of the largest table; the first one beyond each. -/
theorem witness_InstallWritesOneSlot :
    (fresh.Ready ∧ fresh.mem.wf ∧ 3 < fresh.cfg.nSlots ∧ fresh.cfg.nSlots ≤ 4) ∧
    ∃ s : State, s.Ready ∧ s.mem.wf ∧ 255 < s.cfg.nSlots ∧ s.cfg.nSlots ≤ 256 :=
  ⟨⟨ready_fresh, by decide, by decide, by decide⟩,
    { fresh with cfg := bigConfig }, ⟨by decide, rfl⟩, by decide, by decide, by decide⟩

theorem witness_RdslotReturnsTheSlot : fresh.Ready ∧ 0 < fresh.cfg.nSlots ∧ 3 < fresh.cfg.nSlots ∧ fresh.cfg.nSlots ≤ 4 ∧
    fresh.cfg.nSlots ≤ 255 := ⟨ready_fresh, by decide, by decide, by decide, by decide⟩

/-- For ByteFiveOfAGate too. -/
theorem witness_KernelGateOfAServicedVector : stubOf Config.e4 0 = some 0x00100100 ∧
    stubOf Config.e4 3 = some 0x00100130 ∧ stubOf smallConfig 0 = some 0x1000 := by decide

theorem witness_InitPopulatesTheTable : (active.Ready ∧ active.mem.wf ∧ active.ie = false) ∧
    (fresh.Ready ∧ fresh.mem.wf ∧ fresh.ie = false ∧ 0 < fresh.cfg.nSlots ∧
      inTable fresh.cfg 0x00101FFF = false ∧ inTable fresh.cfg 0x00102020 = false) ∧
    (enabled.Ready ∧ enabled.ie = true) :=
  ⟨⟨ready_active, by decide, rfl⟩, ⟨ready_fresh, by decide, rfl, by decide, by decide, by decide⟩, ready_enabled, rfl⟩

theorem witness_PresentExactlyWhenServiced : fresh.mem.wf ∧ fresh.ie = false ∧ runs (exec .init fresh) ∧
    2 < fresh.cfg.nSlots ∧ 3 < fresh.cfg.nSlots :=
  ⟨by decide, rfl, runs_of_isSome (by decide), by decide, by decide⟩

theorem witness_LoadInstallsTheTableRegister : (built.Ready ∧ built.phase ≠ .uninitialized ∧ built.ie = false) ∧
    (active.Ready ∧ active.phase ≠ .uninitialized ∧ active.ie = false) ∧
    (fresh.Ready ∧ fresh.phase = .uninitialized) ∧
    (enabled.Ready ∧ enabled.phase ≠ .uninitialized ∧ enabled.ie = true) :=
  ⟨⟨ready_built, by decide, rfl⟩, ⟨ready_active, by decide, rfl⟩, ⟨ready_fresh, rfl⟩, ready_enabled, by decide, rfl⟩

theorem witness_BootStateMachine : (fresh.Ready ∧ fresh.phase = .uninitialized ∧ fresh.ie = false) ∧
    (built.Ready ∧ built.phase = .built ∧ built.ie = false) ∧
    (active.Ready ∧ active.phase = .active ∧ active.ie = false) ∧
    (enabled.Ready ∧ enabled.phase = .active ∧ enabled.ie = true) ∧
    (Reachable fresh ∧ fresh.phase ≠ .active) :=
  ⟨⟨ready_fresh, rfl, rfl⟩, ⟨ready_built, rfl, rfl⟩, ⟨ready_active, rfl, rfl⟩, ⟨ready_enabled, rfl, rfl⟩,
    ⟨Config.e4, [], by decide, .refl⟩, by decide⟩

/-- Before INIT; outside the range; a bound identifier; the first, the last and the only free one, at the widest tag. -/
theorem witness_RegBindsAFreeIdentifier :
    (fresh.Ready ∧ fresh.phase = .uninitialized) ∧
    (built.Ready ∧ built.phase ≠ .uninitialized ∧ ¬ (built.cfg.irqBase ≤ 4 ∧ 4 < built.cfg.irqBase + built.cfg.nIrq)) ∧
    (bound.Ready ∧ bound.phase ≠ .uninitialized ∧ bound.cfg.irqBase ≤ 1 ∧ 1 < bound.cfg.irqBase + bound.cfg.nIrq ∧
      (bound.regAt 1).bound = true) ∧
    (bound.Ready ∧ bound.phase ≠ .uninitialized ∧ bound.cfg.irqBase ≤ 0 ∧ 3 < bound.cfg.irqBase + bound.cfg.nIrq ∧
      bound.reg.length = bound.cfg.nIrq ∧ bound.ports.t < 2 ^ bound.cfg.tagW ∧ (bound.regAt 0).bound = false ∧
      (bound.regAt 3).bound = false) ∧
    ∃ s : State, s.Ready ∧ s.phase ≠ .uninitialized ∧ s.cfg.irqBase ≤ 255 ∧ 255 < s.cfg.irqBase + s.cfg.nIrq ∧
      s.reg.length = s.cfg.nIrq ∧ s.ports.t < 2 ^ s.cfg.tagW ∧ (s.regAt 255).bound = false ∧
      ¬ (s.cfg.irqBase ≤ 254 ∧ 254 < s.cfg.irqBase + s.cfg.nIrq) :=
  ⟨⟨ready_fresh, rfl⟩, ⟨ready_built, by decide, by decide⟩,
    ⟨ready_bound, by decide, by decide, by decide, by decide⟩,
    ⟨ready_bound, by decide, by decide, by decide, by decide, by decide, by decide, by decide⟩,
    { built with cfg := smallConfig, reg := [RegEntry.unbound], ports := { Ports.idle with t := 1 } },
    ⟨by decide, rfl⟩, by decide, by decide, by decide, by decide, by decide, by decide, by decide⟩

/-- A step of INIT and of another REG, identifier 1 bound. -/
theorem witness_BoundEntriesAreNeverRemoved : (asked bound 5).isBound 1 = true ∧ runs (step (asked bound 5)) ∧
    (asked bound 0x18).isBound 1 = true ∧ runs (step (asked bound 0x18)) :=
  ⟨by decide, runs_of_isSome (by decide), by decide, runs_of_isSome (by decide)⟩

theorem witness_OneHandlerPerIdentifier : Reaches bound bound ∧ bound.isBound 1 = true ∧
    exec (.disp 1) bound = .next { bound with inService := [1], resp := some (.call 0x00103000 0x4B424400 ⟨0⟩) } :=
  ⟨.refl, by decide, rfl⟩

theorem witness_SecondRegistrationIsRejected : built.Ready ∧ built.phase ≠ .uninitialized ∧
    validIrq built.cfg 0 = true ∧ validIrq built.cfg 3 = true ∧ built.reg.length = built.cfg.nIrq ∧
    built.ports.t < 2 ^ built.cfg.tagW ∧ (built.regAt 0).bound = false ∧ (built.regAt 3).bound = false ∧
    0 ∉ built.inService ∧ 3 ∉ built.inService :=
  ⟨ready_built, by decide, by decide, by decide, by decide, by decide, by decide, by decide, by decide, by decide⟩

/-- In service; bound; unbound at both ends of the range; just outside it. -/
theorem witness_DispCallsOrDrops :
    (nested.Ready ∧ 0 ∈ nested.inService ∧ 1 ∈ nested.inService) ∧
    (bound.Ready ∧ 1 ∉ bound.inService ∧ validIrq bound.cfg 1 = true ∧ (bound.regAt 1).bound = true) ∧
    (nested.Ready ∧ 3 ∉ nested.inService ∧ (nested.regAt 3).bound = false) ∧
    (bound.Ready ∧ 4 ∉ bound.inService ∧ validIrq bound.cfg 4 = false) :=
  ⟨⟨ready_nested, by decide, by decide⟩, ⟨ready_bound, by decide, by decide, by decide⟩,
    ⟨ready_nested, by decide, by decide⟩, ready_bound, by decide, by decide⟩

/-- The innermost of two and of one; nothing in service; one that is not the innermost. -/
theorem witness_RetPopsTheInnermost : (nested.Ready ∧ nested.inService = [0] ++ [1]) ∧
    (serving.Ready ∧ serving.inService = [] ++ [1]) ∧ (bound.Ready ∧ bound.inService = []) ∧
    (nested.Ready ∧ nested.inService = [0] ++ [1] ∧ 1 ≠ 0) :=
  ⟨⟨ready_nested, rfl⟩, ⟨ready_serving, rfl⟩, ⟨ready_bound, rfl⟩, ready_nested, rfl, by decide⟩

/-- No table; the first slot beyond the limit; the last slot, not present; the last slot present with a reserved bit,
with an unnamed type, of 16 bits; the last slot with an interrupt gate and with a trap gate. -/
theorem witness_DlvDeliversThroughTheTable :
    (built.Ready ∧ built.idtrValid = false) ∧
    (active.Ready ∧ 8 * 4 + 7 > active.idtr.limit.toNat) ∧
    (active.Ready ∧ (decodeGate (active.slot 3)).1.p = 0) ∧
    (8 * 3 + 7 ≤ active.idtr.limit.toNat ∧ active.idtrValid = true) ∧
    decodeGate ((holding 3 0x00109E0000081234).slot 3) = (⟨0x00101234, 0x0008, 6, 1, 0, 1⟩, true) ∧
    decodeGate ((holding 3 0x00008D0000000000).slot 3) = (⟨0, 0, 5, 1, 0, 1⟩, false) ∧
    decodeGate ((holding 3 0x0000860000000000).slot 3) = (⟨0, 0, 6, 0, 0, 1⟩, false) ∧
    decodeGate ((holding 3 0x00108E0000081234).slot 3) = (⟨0x00101234, 0x0008, 6, 1, 0, 1⟩, false) ∧
    decodeGate ((holding 3 0x00008F0000000000).slot 3) = (⟨0, 0, 7, 1, 0, 1⟩, false) :=
  ⟨⟨ready_built, rfl⟩, ⟨ready_active, by decide⟩, ⟨ready_active, by decide⟩, by decide, by decide, by decide,
    by decide, by decide, by decide⟩

theorem inv_active : active.Inv where
  cfgValid := by decide
  memWf := by decide
  memInTable := by decide
  regLength := by decide
  tagFits := by decide
  faultNamed := by decide
  enabledActive := by decide
  validActive := by decide
  imageLimit := by decide
  imageBase := by decide
  serviceBound := by decide
  serviceNodup := by decide
  reservedClear := by decide

/-- The largest and the smallest table; a slot on either side of the limit. -/
theorem witness_LimitCoversTheTable : configValid bigConfig = true ∧ configValid smallConfig = true ∧ active.Inv ∧ active.idtrValid = true ∧
    8 * 4 + 7 > active.idtr.limit.toNat ∧ ¬ (8 * 3 + 7 > active.idtr.limit.toNat) :=
  ⟨by decide, by decide, inv_active, rfl, by decide, by decide⟩

theorem witness_ServicedVectorEntersItsStub : fresh.Ready ∧ fresh.mem.wf ∧ fresh.ie = false ∧ 3 < fresh.cfg.nSlots ∧
    stubOf fresh.cfg 3 = some 0x00100130 ∧ stubOf fresh.cfg 0 = some 0x00100100 :=
  ⟨ready_fresh, by decide, rfl, by decide, by decide, by decide⟩

theorem witness_DeliverySeesTheInstalledGate : ∃ s : State, s.Ready ∧ s.mem.wf ∧ 3 < s.cfg.nSlots ∧ s.idtrValid = true ∧
    8 * 3 + 7 ≤ s.idtr.limit.toNat ∧ s.ports.f.p = 1 ∧ (s.ports.f.type = 6 ∨ s.ports.f.type = 7) ∧ s.ports.f.size = 1 :=
  ⟨{ enabled with ports := { Ports.idle with f := gateT4 } }, ⟨by decide, rfl⟩, by decide, by decide, rfl, by decide,
    by decide, by decide, by decide⟩

theorem witness_SetieWritesTheEnable : (enabled.Ready ∧ enabled.phase = .active) ∧
    (active.Ready ∧ active.phase = .active) ∧ (built.Ready ∧ built.phase ≠ .active) ∧
    (fresh.Ready ∧ fresh.phase ≠ .active) :=
  ⟨⟨ready_enabled, rfl⟩, ⟨ready_active, rfl⟩, ⟨ready_built, by decide⟩, ready_fresh, by decide⟩

theorem witness_RepeatedCommands : runs (exec .encode fresh) ∧ runs (exec (.dlv 3) (holding 3 0x00108E0000081234)) ∧
    (fresh.mem.wf ∧ runs (exec .init fresh) ∧ runs (exec (.install 3) fresh) ∧ runs (exec .load built)) ∧
    (built.reg.length = built.cfg.nIrq ∧ respOf (exec (.reg 3) built) = some (.status .ok)) ∧
    respOf (exec (.disp 1) bound) = some (.call 0x00103000 0x4B424400 ⟨0⟩) :=
  ⟨runs_of_isSome (by decide), runs_of_isSome (by decide),
    ⟨by decide, runs_of_isSome (by decide), runs_of_isSome (by decide), runs_of_isSome (by decide)⟩,
    by decide, by decide⟩

/-- REG reads H and T: two port bundles that agree on both and differ elsewhere. -/
theorem witness_UnlistedPortsAreIgnored :
    samePorts built { built with ports := { Ports.idle with w := 1, c := ⟨1⟩ } } (.reg 1) ∧ runs (exec (.reg 1) built) :=
  ⟨⟨rfl, rfl⟩, runs_of_isSome (by decide)⟩

theorem witness_CommandsWriteOnlyTheirElements : runs (exec (.install 3) fresh) ∧ writes (.install 3) .phase = false ∧
    writes (.install 3) .table = true := ⟨runs_of_isSome (by decide), by decide, by decide⟩

/-- RDSLOT 3 of two states that agree on slot 3 and differ in slot 0, phase and registry. -/
theorem witness_CommandsReadOnlyTheirElements : ∃ s s' : State, s ≠ s' ∧ s.cfg = s'.cfg ∧ s.mem.wf ∧ s'.mem.wf ∧
    sameReads s s' (.rdslot 3) ∧ samePorts s s' (.rdslot 3) ∧ runs (exec (.rdslot 3) s) ∧ runs (exec (.rdslot 3) s') :=
  ⟨bound, holding 0 0x00108E0000081234, by decide, rfl, by decide, by decide,
    (by decide : bound.slot 3 = (holding 0 0x00108E0000081234).slot 3), trivial, runs_of_isSome (by decide),
    runs_of_isSome (by decide)⟩

/-- A legal word and an illegal one. -/
theorem witness_EveryCommandAnswersOnce : runs (step (asked fresh 0x00000005)) ∧ runs (step (asked fresh 0)) ∧
    (asked fresh 0).pending = [⟨0, Ports.idle⟩] :=
  ⟨runs_of_isSome (by decide), runs_of_isSome (by decide), rfl⟩

/-- A step that raises the phase, and one that waits. -/
theorem witness_PhaseNeverMovesBack : runs (step (asked built 0x00000006)) ∧ runs (step active) :=
  ⟨runs_of_isSome (by decide), runs_of_isSome (by decide)⟩

theorem witness_ConfigurationIsFixed : runs (step (asked fresh 0x00000005)) ∧ runs (step fresh) :=
  ⟨runs_of_isSome (by decide), runs_of_isSome (by decide)⟩

/-- The example configuration and the two extreme ones. -/
theorem witness_InvariantHoldsAtReset : configValid Config.e4 = true ∧ configValid bigConfig = true ∧
    configValid smallConfig = true ∧ configValid wrapConfig = false := by decide

theorem witness_InvariantIsKept : active.Inv ∧ runs (step active) := ⟨inv_active, runs_of_isSome (by decide)⟩

theorem witness_ReachableStatesMeetTheInvariants : Reachable fresh ∧ 3 < fresh.cfg.nSlots :=
  ⟨⟨Config.e4, [], by decide, .refl⟩, by decide⟩

theorem witness_ServiceStackDepth : active.Inv := inv_active

theorem witness_ContextEnteredByCallLeftByRet : (bound.context = .normal ∧ runs (exec (.disp 1) bound)) ∧
    (serving.context = .interrupt ∧ runs (exec (.ret 1) serving)) ∧
    (nested.context = .interrupt ∧ runs (exec (.ret 1) nested)) :=
  ⟨⟨by decide, runs_of_isSome (by decide)⟩, ⟨by decide, runs_of_isSome (by decide)⟩, by decide,
    runs_of_isSome (by decide)⟩

theorem witness_WrappingTableIsRefused : wrapConfig.tableBase.toNat + 8 * wrapConfig.nSlots - 1 > 0xFFFFFFFF ∧
    ¬ (bigConfig.tableBase.toNat + 8 * bigConfig.nSlots - 1 > 0xFFFFFFFF) ∧ (asked fresh 0).pending ≠ [] := by decide

theorem witness_PseudoInstructionsExpand : fresh.Ready ∧ fresh.mem.wf ∧ 0 < fresh.cfg.nSlots ∧ 3 < fresh.cfg.nSlots :=
  ⟨ready_fresh, by decide, by decide, by decide⟩

end Sys2Proof.Tests
end

section
/-! Proofs: the scope statements (00_scope.md). -/

namespace Sys2Proof.Machine

/-- Settles O14: `step_legal`, with `State.accept`, the host's side of a step, written out as its two fields
(R6, R60). -/
theorem stepPerformsTheDecodedCommand : Obligations.StepPerformsTheDecodedCommand := by
  unfold Obligations.StepPerformsTheDecodedCommand
  intro s r rest i hpending hdecode
  exact step_legal hpending hdecode

end Sys2Proof.Machine
end

section
/-! Proofs: the memory statements (20_memory.md). -/

namespace Sys2Proof.Machine

/-! ### The byte image of the table (R40, R41) -/

/-- Byte k of a slot stands at the slot's address plus k, in every state (R41). -/
theorem get_slotAddr_add (s : State) (v : Nat) {k : Nat} (hk : k < 8) :
    s.mem.get (slotAddr s.cfg v + k) = wordByte (s.slot v) k := by
  apply BitVec.eq_of_toNat_eq
  rw [toNat_wordByte, toNat_slot, leNat_getBytes_byte s.mem 8 (slotAddr s.cfg v) k hk]

/-- The eight bytes of a slot of the table are bytes of the table (R40, R41). -/
theorem inTable_slotAddr_add {c : Config} {v k : Nat} (hv : v < c.nSlots) (hk : k < 8) :
    inTable c (slotAddr c v + k) = true := by
  rw [inTable, decide_eq_true_eq, slotAddr]
  omega

/-- What a reader of the byte image sees of a slot of the table (R41). -/
theorem imageByte_slotAddr_add (s : State) {v k : Nat} (hv : v < s.cfg.nSlots) (hk : k < 8) :
    s.imageByte (slotAddr s.cfg v + k) = some (wordByte (s.slot v) k) := by
  rw [State.imageByte, if_pos (inTable_slotAddr_add hv hk), get_slotAddr_add s v hk]

/-- The lowest byte of a gate word is the lowest byte of its offset (R81). -/
theorem gateFields_off_lowByte (w : DescWord) : (gateFields w).off.extractLsb' 0 8 = w.extractLsb' 0 8 :=
  calc (w.extractLsb' 48 16 ++ w.extractLsb' 0 16).extractLsb' 0 8
    _ = (w.extractLsb' 0 16).extractLsb' 0 8 := BitVec.extractLsb'_append_eq_of_add_le (by decide)
    _ = w.extractLsb' 0 8 := BitVec.extractLsb'_extractLsb'_of_le (by decide)

/-- Settles O19: a byte of a slot is a byte of the table (`imageByte_slotAddr_add`), and its eight bytes spell the
slot (`toNat_slot`). -/
theorem tableByteImage : Obligations.TableByteImage := by
  unfold Obligations.TableByteImage
  intro s v hv
  refine ⟨fun k hk => imageByte_slotAddr_add s hv hk, (toNat_slot s v).symm, ?_,
    imageByte_slotAddr_add s hv (by decide)⟩
  rw [gateFields_off_lowByte]
  exact imageByte_slotAddr_add s hv (by decide : 0 < 8)

/-! ### The table-register image (R42, R72) -/

/-- A part of the image below bit 16 is that part of the limit (R72). -/
theorem extractLsb'_image_limit (r : Idtr) {start len : Nat} (h : start + len ≤ 16) :
    r.image.extractLsb' start len = r.limit.extractLsb' start len :=
  BitVec.extractLsb'_append_eq_of_add_le h

/-- A part of the image from bit 16 up is the part of the base 16 bits lower (R72). -/
theorem extractLsb'_image_base (r : Idtr) {start len : Nat} (h : 16 ≤ start) :
    r.image.extractLsb' start len = r.base.extractLsb' (start - 16) len :=
  BitVec.extractLsb'_append_eq_of_le h

/-- Byte k of an image holds its bits 8k+7..8k (R42). -/
theorem getElem?_imageBytes (m : BitVec 48) {k : Nat} (hk : k < 6) :
    (imageBytes m)[k]? = some (m.extractLsb' (8 * k) 8) := by
  rw [imageBytes, List.getElem?_map, List.getElem?_range hk, Option.map_some]

/-- The bytes of the table-register image: the limit's two, then the base's four, each little-endian (R42). -/
theorem imageBytes_image (r : Idtr) : imageBytes r.image =
    [r.limit.extractLsb' 0 8, r.limit.extractLsb' 8 8, r.base.extractLsb' 0 8,
      r.base.extractLsb' 8 8, r.base.extractLsb' 16 8, r.base.extractLsb' 24 8] := by
  have bytes : imageBytes r.image = [r.image.extractLsb' 0 8, r.image.extractLsb' 8 8, r.image.extractLsb' 16 8,
      r.image.extractLsb' 24 8, r.image.extractLsb' 32 8, r.image.extractLsb' 40 8] := rfl
  simp [bytes, extractLsb'_image_limit, extractLsb'_image_base]

/-- Settles O27: each field is a part of the image on its side of bit 16, and each byte lies within one field. -/
theorem tableRegisterImage : Obligations.TableRegisterImage := by
  unfold Obligations.TableRegisterImage
  intro r
  have limit : r.image.extractLsb' 0 16 = r.limit := by
    rw [extractLsb'_image_limit r (by decide), BitVec.extractLsb'_eq_self]
  have base : r.image.extractLsb' 16 32 = r.base := by
    rw [extractLsb'_image_base r (by decide), BitVec.extractLsb'_eq_self]
  exact ⟨limit, base, imageBytes_image r, fun k hk => getElem?_imageBytes r.image hk⟩

/-! ### A configuration that breaks a constraint (R7, R45) -/

/-- A table that passes the end of the address space breaks the constraints on the parameters (R45). -/
theorem configValid_of_wraps {c : Config} (h : c.tableBase.toNat + 8 * c.nSlots - 1 > 0xFFFFFFFF) :
    configValid c = false := by
  rw [configValid, decide_eq_false_iff_not]
  rintro ⟨-, -, noWrap, -⟩
  omega

/-- Every command starts with `State.perform`, so a bad configuration refuses every one. -/
theorem exec_badConfig {s : State} (h : configValid s.cfg = false) (i : Instr) : exec i s = .refused .badConfig := by
  cases i <;> exact perform_badConfig h _

/-- Under a bad configuration the next word is refused, whether it selects a command or is illegal (R65). -/
theorem step_badConfig {s : State} (h : configValid s.cfg = false) (hp : s.pending ≠ []) :
    step s = .refused .badConfig := by
  obtain ⟨r, rest, hr⟩ := List.exists_cons_of_ne_nil hp
  have hc : configValid (s.accept r rest).cfg = false := h
  cases hd : decode r.cw with
  | ok i => rw [step_legal hr hd, exec_badConfig hc]
  | error e => rw [step_illegal hr hd, State.illegalWord, perform_badConfig hc]

/-- Settles O52: a wrapping table is a bad configuration, and that refuses every command and every word. -/
theorem wrappingTableIsRefused : Obligations.WrappingTableIsRefused := by
  unfold Obligations.WrappingTableIsRefused
  intro s wraps
  have bad := configValid_of_wraps wraps
  exact ⟨exec_badConfig bad, step_badConfig bad⟩

end Sys2Proof.Machine
end

section
/-! Proofs: the encoding statements (30_encoding.md). -/

namespace Sys2Proof

/-! ### The rows of the opcode map (R64, R65) -/

/-- A row's match is the low four bits of every word the row selects: every mask covers `op`, and no match has
another bit (R64). -/
theorem pat_of_selects {r : OpRow} {cw : CmdWord} (hr : r ∈ opcodeMap) (hs : r.selects cw = true) :
    r.pat = cw &&& 0xF := by
  have opBits : ∀ r ∈ opcodeMap, r.mask &&& 0xF = 0xF ∧ r.pat &&& 0xF = r.pat := by decide
  obtain ⟨hmask, hpat⟩ := opBits r hr
  have selected : cw &&& r.mask = r.pat := by simpa [OpRow.selects] using hs
  calc r.pat
    _ = cw &&& r.mask &&& 0xF := by rw [selected, hpat]
    _ = cw &&& 0xF := by rw [BitVec.and_assoc, hmask]

/-- No word selects two rows: rows that select one word have one match, and no two rows share theirs. -/
theorem row_unique_of_selects {r r' : OpRow} {cw : CmdWord} (hr : r ∈ opcodeMap) (hr' : r' ∈ opcodeMap)
    (hs : r.selects cw = true) (hs' : r'.selects cw = true) : r = r' := by
  have nodup : (opcodeMap.map OpRow.pat).Nodup := by decide
  exact List.inj_on_of_nodup_map nodup hr hr' ((pat_of_selects hr hs).trans (pat_of_selects hr' hs').symm)

/-- A row that selects a word gives its meaning. -/
theorem decode_of_selects {r : OpRow} {cw : CmdWord} (hr : r ∈ opcodeMap) (hs : r.selects cw = true) :
    decode cw = .ok (r.make (idxField cw) (bField cw)) := by
  cases hd : decode cw with
  | ok i =>
    obtain ⟨r', hr', hs', rfl⟩ := decode_ok hd
    rw [row_unique_of_selects hr hr' hs hs']
  | error e => exact absurd hs (by simp [decode_error hd r hr])

/-- The decoder answers a command exactly when a row that selects the word makes it (R64). -/
theorem decode_eq_ok_iff {cw : CmdWord} {i : Instr} :
    decode cw = .ok i ↔ ∃ r ∈ opcodeMap, r.selects cw = true ∧ i = r.make (idxField cw) (bField cw) := by
  constructor
  · exact decode_ok
  · rintro ⟨r, hr, hs, rfl⟩
    exact decode_of_selects hr hs

/-- A word is illegal exactly when it selects no row (R65). -/
theorem decode_isError_iff {cw : CmdWord} :
    (∃ e, decode cw = .error e) ↔ ¬ ∃ r ∈ opcodeMap, r.selects cw = true := by
  constructor
  · rintro ⟨e, he⟩ ⟨r, hr, hs⟩
    exact absurd hs (by simp [decode_error he r hr])
  · intro noRow
    cases hd : decode cw with
    | ok i =>
      obtain ⟨r, hr, hs, -⟩ := decode_ok hd
      exact absurd ⟨r, hr, hs⟩ noRow
    | error e => exact ⟨e, rfl⟩

/-- Settles O10: the decoder answers from the row that selects the word (`decode_eq_ok_iff`), and only one row makes
each command. -/
theorem everyRowDecodesAsPrinted : Obligations.EveryRowDecodesAsPrinted := by
  unfold Obligations.EveryRowDecodesAsPrinted
  intro cw
  simp only [decode_eq_ok_iff, opcodeMap, List.exists_mem_cons_iff]
  simp [OpRow.selects, idxField, bField]

theorem opField_lt (cw : CmdWord) : opField cw < 16 := (cw.extractLsb' 0 4).isLt

/-- The words that select a row, by their fields (R64). -/
theorem exists_row_selects_iff (cw : CmdWord) : (∃ r ∈ opcodeMap, r.selects cw = true) ↔
    rsvdField cw = 0 ∧
      (opField cw ∈ [0x1, 0x2, 0x5, 0x6] ∧ idxField cw = 0 ∧ bField cw = false ∨
        opField cw ∈ [0x3, 0x4, 0x8, 0x9, 0xA, 0xB] ∧ bField cw = false ∨
        opField cw = 0x7 ∧ idxField cw = 0) := by
  have fixedRow {op : Nat} (h : op < 16) : cw &&& 0xFFFFFFFF = (OfNat.ofNat op : CmdWord) ↔ _ := and_fullMask cw h
  have idxRow {op : Nat} (h : op < 16) : cw &&& 0xFFFFF00F = (OfNat.ofNat op : CmdWord) ↔ _ := and_idxMask cw h
  simp (disch := decide) only [opcodeMap, OpRow.selects, List.exists_mem_cons_iff, beq_iff_eq, fixedRow, idxRow,
    and_enableMask]
  grind

/-- The words R65 lists are those that select no row. -/
theorem no_row_selects_iff (cw : CmdWord) : (¬ ∃ r ∈ opcodeMap, r.selects cw = true) ↔
    opField cw = 0x0 ∨ 0xC ≤ opField cw ∨ rsvdField cw ≠ 0 ∨ (bField cw = true ∧ opField cw ≠ 0x7) ∨
      (idxField cw ≠ 0 ∧ opField cw ∈ [0x1, 0x2, 0x5, 0x6, 0x7]) := by
  have opBound := opField_lt cw
  rw [exists_row_selects_iff]
  cases bField cw
  · simp
    omega
  · simp
    omega

end Sys2Proof

namespace Sys2Proof.Machine

/-- An illegal word presented to a ready block writes code 1 and nothing else of the block (R65). -/
theorem step_illegal_ready {s : State} {r : Request} {rest : List Request} {e : IllegalWord} (hready : s.Ready)
    (hpending : s.pending = r :: rest) (hdecode : decode r.cw = .error e) :
    step s = .next { s with pending := rest, ports := r.ports, fault := 1, resp := some (.fault 1) } := by
  have accepted : (s.accept r rest).Ready := hready
  rw [step_illegal hpending hdecode, State.illegalWord, perform_ready accepted, raise_eq]
  rfl

/-- Settles O11: a word is illegal when it selects no row, and those are the words of R65. -/
theorem illegalWordsRaiseIllegalCommand : Obligations.IllegalWordsRaiseIllegalCommand := by
  unfold Obligations.IllegalWordsRaiseIllegalCommand
  exact ⟨fun cw => decode_isError_iff.trans (no_row_selects_iff cw),
    fun _ _ _ _ hready hpending hdecode => step_illegal_ready hready hpending hdecode⟩

/-! ### The gate word (R68, R69) -/

/-- A field is the part of a word whose bits are the field's. -/
theorem extractLsb'_eq_of_bits {n w : Nat} {x : BitVec n} {start : Nat} {field : BitVec w}
    (h : ∀ k < w, x.getLsbD (start + k) = field.getLsbD k) : x.extractLsb' start w = field := by
  refine BitVec.eq_of_getLsbD_eq fun k hk => ?_
  rw [BitVec.getLsbD_extractLsb', h k hk, decide_eq_true hk, Bool.true_and]

/-- The reserved bits of an encoded gate are 0 (R69, R80). -/
theorem getLsbD_encodeGate_reserved (f : GateFields) {k : Nat} (h : 32 ≤ k ∧ k ≤ 39 ∨ k = 44) :
    (encodeGate f).getLsbD k = false := by
  rw [getLsbD_encodeGate]
  rcases h with h | rfl
  · simp (disch := omega) only [if_pos, if_neg]
  · rfl

/-- The bits of the reserved mask (R69). -/
theorem getLsbD_rsvdMask : ∀ k < 64, rsvdMask.getLsbD k = (decide (32 ≤ k ∧ k ≤ 39) || decide (k = 44)) := by decide

/-- Settles O1: each field by the bits at its place (`getLsbD_encodeGate`), and the offset from its two halves. -/
theorem encodedGatePlacesEveryField : Obligations.EncodedGatePlacesEveryField := by
  unfold Obligations.EncodedGatePlacesEveryField
  intro f
  have offLow : (encodeGate f).extractLsb' 0 16 = f.off.extractLsb' 0 16 := extractLsb'_eq_of_bits fun k hk => by
    rw [getLsbD_encodeGate, if_pos (by omega), BitVec.getLsbD_extractLsb', decide_eq_true hk, Bool.true_and]
  have offHigh : (encodeGate f).extractLsb' 48 16 = f.off.extractLsb' 16 16 := by
    refine extractLsb'_eq_of_bits fun k hk => ?_
    have place : 48 + k - 32 = 16 + k := by omega
    simp (disch := omega) only [getLsbD_encodeGate, if_neg, BitVec.getLsbD_extractLsb', place, hk, decide_true,
      Bool.true_and]
  have off : (encodeGate f).extractLsb' 48 16 ++ (encodeGate f).extractLsb' 0 16 = f.off := by
    rw [offHigh, offLow]
    exact (BitVec.extractLsb'_append_extractLsb'_eq_extractLsb' (x := f.off) rfl).trans BitVec.extractLsb'_eq_self
  have reserved {start w : Nat} (h : ∀ k < w, 32 ≤ start + k ∧ start + k ≤ 39 ∨ start + k = 44) :
      (encodeGate f).extractLsb' start w = 0 := extractLsb'_eq_of_bits fun k hk => by
    rw [getLsbD_encodeGate_reserved f (h k hk)]
    exact BitVec.getLsbD_zero.symm
  refine ⟨offLow, ?sel, reserved (by omega), reserved (by omega), ?type, ?size, reserved (by omega), ?dpl,
    ?present, offHigh, off⟩
  all_goals
    refine extractLsb'_eq_of_bits fun k hk => ?_
    simp (disch := omega) only [getLsbD_encodeGate, if_pos, if_neg, Nat.add_sub_cancel_left]

/-- No reserved bit of an encoded gate is set (R69). -/
theorem encodeGate_and_rsvdMask (f : GateFields) : encodeGate f &&& rsvdMask = 0 := by
  refine BitVec.eq_of_getLsbD_eq fun k hk => ?_
  rw [BitVec.getLsbD_and, getLsbD_rsvdMask k hk]
  by_cases h : 32 ≤ k ∧ k ≤ 39 ∨ k = 44
  · simp [getLsbD_encodeGate_reserved f h]
  · simp [not_or.1 h]

/-- Settles O2: no bit of the mask is a bit of an encoded gate (`encodeGate_and_rsvdMask`). -/
theorem reservedBitsAreNeverEncoded : Obligations.ReservedBitsAreNeverEncoded := by
  unfold Obligations.ReservedBitsAreNeverEncoded
  exact ⟨getLsbD_rsvdMask, by decide, encodeGate_and_rsvdMask⟩

/-! ### Responses (R63) -/

/-- `Fault(code)` is a response of every command. -/
theorem answers_of_raise {s t : State} {f : FaultName} (i : Instr) (h : s.raise f = .next t) :
    ∃ a, t.resp = some a ∧ responseOf i a := by
  rw [raise_next] at h
  subst h
  exact ⟨.fault (faultCode f), rfl, by cases i <;> trivial⟩

/-- A performed command answers in one of the forms R63 gives it. -/
theorem exec_answers {i : Instr} {s t : State} (h : exec i s = .next t) : ∃ a, t.resp = some a ∧ responseOf i a := by
  cases i with
  | encode =>
    obtain ⟨-, rfl⟩ := execEncode_next.1 h
    exact ⟨_, rfl, trivial⟩
  | decode =>
    obtain ⟨-, rfl⟩ := execDecode_next.1 h
    exact ⟨_, rfl, trivial⟩
  | install v =>
    obtain ⟨-, ⟨-, h⟩ | ⟨-, rfl⟩⟩ := execInstall_next.1 h
    · exact answers_of_raise _ h
    · exact ⟨_, rfl, trivial⟩
  | rdslot v =>
    obtain ⟨-, ⟨-, h⟩ | ⟨-, rfl⟩⟩ := execRdslot_next.1 h
    · exact answers_of_raise _ h
    · exact ⟨_, rfl, trivial⟩
  | init =>
    obtain ⟨-, ⟨-, h⟩ | ⟨-, rfl⟩⟩ := execInit_next.1 h
    · exact answers_of_raise _ h
    · exact ⟨_, rfl, trivial⟩
  | load =>
    obtain ⟨-, ⟨-, h⟩ | ⟨-, -, h⟩ | ⟨-, -, rfl⟩⟩ := execLoad_next.1 h
    · exact answers_of_raise _ h
    · exact answers_of_raise _ h
    · exact ⟨_, rfl, trivial⟩
  | setie b =>
    obtain ⟨-, ⟨-, -, h⟩ | ⟨-, rfl⟩⟩ := execSetie_next.1 h
    · exact answers_of_raise _ h
    · exact ⟨_, rfl, trivial⟩
  | reg i =>
    obtain ⟨-, ⟨-, h⟩ | ⟨-, -, rfl⟩ | ⟨-, -, -, rfl⟩ | ⟨-, -, -, rfl⟩⟩ := execReg_next.1 h
    · exact answers_of_raise _ h
    all_goals exact ⟨_, rfl, trivial⟩
  | disp i =>
    obtain ⟨-, ⟨-, h⟩ | ⟨-, -, rfl⟩ | ⟨-, -, rfl⟩⟩ := execDisp_next.1 h
    · exact answers_of_raise _ h
    · exact ⟨_, rfl, trivial⟩
    · exact ⟨_, rfl, rfl⟩
  | ret i =>
    obtain ⟨-, ⟨-, rfl⟩ | ⟨-, h⟩⟩ := execRet_next.1 h
    · exact ⟨_, rfl, trivial⟩
    · exact answers_of_raise _ h
  | dlv v =>
    obtain ⟨-, ⟨-, h⟩ | ⟨-, -, -, -, h⟩ | ⟨-, -, -, -, rfl⟩⟩ := execDlv_next.1 h
    · exact answers_of_raise _ h
    · exact answers_of_raise _ h
    · exact ⟨_, rfl, trivial⟩

/-- INIT's pass over the slots carries the earlier response along unread. -/
theorem setSlots_resp_irrel (s : State) (earlier : Option Response) (f : Nat → DescWord) (n : Nat) :
    State.setSlots { s with resp := earlier } f n = { s.setSlots f n with resp := earlier } := by
  induction n with
  | zero => rfl
  | succ n ih => rw [State.setSlots, ih]; rfl

/-- No command depends on the earlier response: none reads it, and each one writes it (R30, R63). -/
theorem exec_resp_irrel (i : Instr) (s : State) (earlier : Option Response) :
    exec i { s with resp := earlier } = exec i s := by
  cases i with
  | init =>
    simp only [exec, execInit, setSlots_resp_irrel]
    rfl
  | _ => rfl

/-- A step that takes a word, legal or not, does not depend on the earlier response (R63). -/
theorem step_resp_irrel {s : State} (hpending : s.pending ≠ []) (earlier : Option Response) :
    step { s with resp := earlier } = step s := by
  obtain ⟨r, rest, hr⟩ := List.exists_cons_of_ne_nil hpending
  have hr' : { s with resp := earlier }.pending = r :: rest := hr
  cases hd : decode r.cw with
  | ok i =>
    rw [step_legal hr hd, step_legal hr' hd]
    exact exec_resp_irrel i (s.accept r rest) earlier
  | error e =>
    rw [step_illegal hr hd, step_illegal hr' hd]
    rfl

/-- Settles O43: a command answers in a form of its own (`exec_answers`), an illegal word with code 1, and neither
reads the earlier response (`step_resp_irrel`). -/
theorem everyCommandAnswersOnce : Obligations.EveryCommandAnswersOnce := by
  unfold Obligations.EveryCommandAnswersOnce
  intro s t r rest hpending hstep
  refine ⟨?_, fun earlier => (step_resp_irrel (by simp [hpending]) earlier).trans hstep⟩
  cases hd : decode r.cw with
  | ok i => exact exec_answers (step_legal hpending hd ▸ hstep)
  | error e =>
    rw [step_illegal hpending hd, State.illegalWord, perform_next, raise_next] at hstep
    obtain ⟨-, rfl⟩ := hstep
    exact ⟨.fault 1, rfl, rfl⟩

end Sys2Proof.Machine
end

section
/-! Proofs: the codec statements (40_codec.md). -/

namespace Sys2Proof.Machine

/-! ### The words of ENCODE and DECODE (R64, R82, R83) -/

/-- Under the mask of a row with no free field stands the whole word (R64). -/
theorem and_wholeMask (cw : CmdWord) : cw &&& 0xFFFFFFFF = cw := BitVec.and_allOnes

theorem decode_eq_encode_iff (cw : CmdWord) : decode cw = .ok .encode ↔ cw = 0x00000001 := by
  obtain ⟨encodeRow, -⟩ := everyRowDecodesAsPrinted cw
  rwa [and_wholeMask] at encodeRow

theorem decode_eq_decode_iff (cw : CmdWord) : decode cw = .ok .decode ↔ cw = 0x00000002 := by
  obtain ⟨-, decodeRow, -⟩ := everyRowDecodesAsPrinted cw
  rwa [and_wholeMask] at decodeRow

/-! ### What the two commands answer (R82, R83) -/

theorem exec_encode_ready {s : State} (hready : s.Ready) :
    exec .encode s = .next { s with resp := some (.word (encodeGate s.ports.f)) } :=
  execEncode_next.2 ⟨hready, rfl⟩

theorem exec_decode_ready {s : State} (hready : s.Ready) :
    exec .decode s = .next { s with resp := some (.fields (gateFields s.ports.w) (rsvdNonzero s.ports.w)) } :=
  execDecode_next.2 ⟨hready, rfl⟩

/-- Settles O6: ENCODE's row has no free field (`decode_eq_encode_iff`), and the command only responds
(`exec_encode_ready`). -/
theorem encodeRespondsWithTheWord : Obligations.EncodeRespondsWithTheWord := by
  unfold Obligations.EncodeRespondsWithTheWord
  exact ⟨decode_eq_encode_iff, fun _ hready => exec_encode_ready hready, by decide, by decide⟩

/-! ### Reserved bits of a decoded word (R81) -/

theorem rsvdNonzero_iff (w : DescWord) : rsvdNonzero w = true ↔ w &&& rsvdMask ≠ 0 := bne_iff_ne

/-- Clearing the reserved bits leaves a part of a word that holds none of them. -/
theorem extractLsb'_and_not_rsvdMask (w : DescWord) {start len : Nat}
    (h : (~~~rsvdMask).extractLsb' start len = BitVec.allOnes len) :
    (w &&& ~~~rsvdMask).extractLsb' start len = w.extractLsb' start len := by
  rw [BitVec.extractLsb'_and, h, BitVec.and_allOnes]

/-- No field has a reserved bit in its place, so clearing them changes no field (R81). -/
theorem gateFields_and_not_rsvdMask (w : DescWord) : gateFields (w &&& ~~~rsvdMask) = gateFields w := by
  have keeps {start len : Nat} (h : (~~~rsvdMask).extractLsb' start len = BitVec.allOnes len) :=
    extractLsb'_and_not_rsvdMask w h
  exact gateFields_ext (congrArg₂ (· ++ ·) (keeps (by decide)) (keeps (by decide))) (keeps (by decide))
    (keeps (by decide)) (keeps (by decide)) (keeps (by decide)) (keeps (by decide))

/-- Settles O7: DECODE responds `gateFields` and `rsvdNonzero` of its word (`exec_decode_ready`), and the fields are
those of the word with its reserved bits cleared (`gateFields_and_not_rsvdMask`). -/
theorem decodeRespondsWithTheFields : Obligations.DecodeRespondsWithTheFields := by
  unfold Obligations.DecodeRespondsWithTheFields
  refine ⟨decode_eq_decode_iff, fun s hready => ?_, by decide, by decide⟩
  exact ⟨gateFields s.ports.w, rsvdNonzero s.ports.w, exec_decode_ready hready, rfl, rfl, rfl, rfl, rfl, rfl,
    rsvdNonzero_iff s.ports.w, (gateFields_and_not_rsvdMask s.ports.w).symm⟩

end Sys2Proof.Machine
end

section
/-! Proofs: the table-manager statements (41_table_manager.md). -/

namespace Sys2Proof.Machine

/-! ### The words of the four commands (R64) -/

theorem decode_eq_install_iff (cw : CmdWord) (v : Nat) : decode cw = .ok (.install v) ↔
    cw &&& 0xFFFFF00F = 0x00000003 ∧ v = (cw.extractLsb' 4 8).toNat := by
  obtain ⟨-, -, installRow, -⟩ := everyRowDecodesAsPrinted cw
  exact installRow v

theorem decode_eq_rdslot_iff (cw : CmdWord) (v : Nat) : decode cw = .ok (.rdslot v) ↔
    cw &&& 0xFFFFF00F = 0x00000004 ∧ v = (cw.extractLsb' 4 8).toNat := by
  obtain ⟨-, -, -, rdslotRow, -⟩ := everyRowDecodesAsPrinted cw
  exact rdslotRow v

theorem decode_eq_init_iff (cw : CmdWord) : decode cw = .ok .init ↔ cw = 0x00000005 := by
  obtain ⟨-, -, -, -, initRow, -⟩ := everyRowDecodesAsPrinted cw
  rwa [and_wholeMask] at initRow

theorem decode_eq_load_iff (cw : CmdWord) : decode cw = .ok .load ↔ cw = 0x00000006 := by
  obtain ⟨-, -, -, -, -, loadRow, -⟩ := everyRowDecodesAsPrinted cw
  rwa [and_wholeMask] at loadRow

/-! ### INSTALL (R90) -/

theorem exec_install_inside {s : State} {v : Nat} (hready : s.Ready) (hv : v < s.cfg.nSlots) :
    exec (.install v) s = .next { s.setSlot v (encodeGate s.ports.f) with resp := some .done } :=
  execInstall_next.2 ⟨hready, .inr ⟨hv, rfl⟩⟩

theorem exec_install_beyond {s : State} {v : Nat} (hready : s.Ready) (hv : s.cfg.nSlots ≤ v) :
    exec (.install v) s = .next { s with fault := 2, resp := some (.fault 2) } :=
  execInstall_next.2 ⟨hready, .inl ⟨hv, raise_eq s .slotOutOfRange⟩⟩

/-- Settles O20: inside the table INSTALL is one `State.setSlot` (`exec_install_inside`), which writes the eight
bytes of its slot and no other, with a word that has no reserved bit (`encodeGate_and_rsvdMask`). -/
theorem installWritesOneSlot : Obligations.InstallWritesOneSlot := by
  unfold Obligations.InstallWritesOneSlot
  refine ⟨decode_eq_install_iff, fun s v hready hwf hv => ?_, fun _ _ => exec_install_beyond⟩
  have written : (s.setSlot v (encodeGate s.ports.f)).slot v = encodeGate s.ports.f := slot_setSlot_same s v _ hwf
  refine ⟨_, exec_install_inside hready hv, written, ?reserved, fun u hu => slot_setSlot_other s _ hu, ?bytes, rfl⟩
  case reserved => exact (congrArg (· &&& rsvdMask) written).trans (encodeGate_and_rsvdMask s.ports.f)
  case bytes =>
    rintro a rfl x hx
    exact get_setSlot_other s v _ hx

/-! ### RDSLOT (R91) -/

theorem exec_rdslot_inside {s : State} {v : Nat} (hready : s.Ready) (hv : v < s.cfg.nSlots) :
    exec (.rdslot v) s = .next { s with resp := some (.word (s.slot v)) } :=
  execRdslot_next.2 ⟨hready, .inr ⟨hv, rfl⟩⟩

theorem exec_rdslot_beyond {s : State} {v : Nat} (hready : s.Ready) (hv : s.cfg.nSlots ≤ v) :
    exec (.rdslot v) s = .next { s with fault := 2, resp := some (.fault 2) } :=
  execRdslot_next.2 ⟨hready, .inl ⟨hv, raise_eq s .slotOutOfRange⟩⟩

/-- Every slot resets to 0: no byte is listed, and an unlisted one reads 0 (R23). -/
theorem slot_resetWith (c : Config) (reqs : List Request) (v : Nat) : (State.resetWith c reqs).slot v = 0 := rfl

/-- Settles O21: RDSLOT responds the slot and writes nothing (`exec_rdslot_inside`); at reset that is 0. -/
theorem rdslotReturnsTheSlot : Obligations.RdslotReturnsTheSlot := by
  unfold Obligations.RdslotReturnsTheSlot
  exact ⟨decode_eq_rdslot_iff, fun _ _ => exec_rdslot_inside, fun _ _ => exec_rdslot_beyond, slot_resetWith⟩

/-! ### The word INIT writes (R92) -/

theorem initWord_of_serviced {c : Config} {v : Nat} {stub : Addr} (h : stubOf c v = some stub) :
    initWord c v = encodeGate (kernelGate c stub) := by
  rw [initWord, h]

theorem initWord_of_unserviced {c : Config} {v : Nat} (h : stubOf c v = none) : initWord c v = 0 := by
  rw [initWord, h]

/-- Settles O22: the gate's fields are those of `kernelGate`. -/
theorem kernelGateOfAServicedVector : Obligations.KernelGateOfAServicedVector := by
  unfold Obligations.KernelGateOfAServicedVector
  intro c v stub hstub
  exact initWord_of_serviced hstub

/-! ### INIT (R93, R94) -/

theorem exec_init_disabled {s : State} (hready : s.Ready) (hie : s.ie = false) :
    exec .init s = .next (initialised s) :=
  execInit_next.2 ⟨hready, .inr ⟨hie, rfl⟩⟩

theorem exec_init_enabled {s : State} (hready : s.Ready) (hie : s.ie = true) :
    exec .init s = .next { s with fault := 3, resp := some (.fault 3) } :=
  execInit_next.2 ⟨hready, .inl ⟨hie, raise_eq s .initWhileEnabled⟩⟩

/-- An address outside the table lies below its first byte or past its last (R40). -/
theorem inTable_eq_false_iff {c : Config} {a : Nat} :
    inTable c a = false ↔ a < c.tableBase.toNat ∨ c.tableBase.toNat + 8 * c.nSlots ≤ a := by
  rw [inTable, decide_eq_false_iff_not]
  omega

/-- After INIT every slot of the table holds the word INIT has for it (R93). -/
theorem slot_initialised {s : State} (hwf : s.mem.wf) {v : Nat} (hv : v < s.cfg.nSlots) :
    (initialised s).slot v = initWord s.cfg v :=
  calc (initialised s).slot v
    _ = (s.setSlots (initWord s.cfg) s.cfg.nSlots).slot v := slot_congr v (setSlots_cfg s _ _).symm fun _ _ _ => rfl
    _ = initWord s.cfg v := by rw [slot_setSlots s _ hwf, if_pos hv]

/-- INIT leaves every byte outside the table alone. -/
theorem get_initialised_outside {s : State} {a : Nat} (h : inTable s.cfg a = false) :
    (initialised s).mem.get a = s.mem.get a :=
  get_setSlots_other s _ _ (inTable_eq_false_iff.1 h)

/-- Active stays Active under INIT, every other phase becomes Built (R94). -/
theorem nextPhaseInit_eq (p : Phase) : nextPhaseInit p = if p = .active then .active else .built := by
  cases p <;> rfl

/-- Settles O23: INIT leaves `initialised`, whose slots hold `initWord` (`slot_initialised`), the kernel gate of a
serviced vector and 0 for any other. -/
theorem initPopulatesTheTable : Obligations.InitPopulatesTheTable := by
  unfold Obligations.InitPopulatesTheTable
  refine ⟨decode_eq_init_iff, fun s hready hwf hie => ?_, fun _ => exec_init_enabled⟩
  refine ⟨initialised s, exec_init_disabled hready hie, fun v hv => ?slot, fun _ => get_initialised_outside,
    nextPhaseInit_eq s.phase, rfl⟩
  case slot =>
    rw [slot_initialised hwf hv]
    cases hstub : stubOf s.cfg v with
    | some stub => exact initWord_of_serviced hstub
    | none => exact initWord_of_unserviced hstub

/-! ### LOAD (R95, R96) -/

theorem exec_load_built {s : State} (hready : s.Ready) (hphase : s.phase ≠ .uninitialized) (hie : s.ie = false) :
    exec .load s = .next { s.installIdtr (loadImage s.cfg) with resp := some (.idtr (loadImage s.cfg).image) } :=
  execLoad_next.2 ⟨hready, .inr (.inr ⟨hphase, hie, rfl⟩)⟩

theorem exec_load_uninitialized {s : State} (hready : s.Ready) (hphase : s.phase = .uninitialized) :
    exec .load s = .next { s with fault := 4, resp := some (.fault 4) } :=
  execLoad_next.2 ⟨hready, .inl ⟨hphase, raise_eq s .loadBeforeInit⟩⟩

theorem exec_load_enabled {s : State} (hready : s.Ready) (hphase : s.phase ≠ .uninitialized) (hie : s.ie = true) :
    exec .load s = .next { s with fault := 5, resp := some (.fault 5) } :=
  execLoad_next.2 ⟨hready, .inr (.inl ⟨hphase, hie, raise_eq s .loadWhileEnabled⟩)⟩

/-- The limit is the table's last byte offset in 16 bits (R96). -/
theorem toNat_tableLimit (c : Config) : (tableLimit c).toNat = (8 * c.nSlots - 1) % 2 ^ 16 :=
  BitVec.toNat_ofNat ..

/-- Settles O25: LOAD installs `loadImage` (`exec_load_built`), whose limit is `tableLimit`; each fault has its own
case of phase and enable. -/
theorem loadInstallsTheTableRegister : Obligations.LoadInstallsTheTableRegister := by
  unfold Obligations.LoadInstallsTheTableRegister
  refine ⟨decode_eq_load_iff, fun s hready hphase hie => ?_, fun _ => exec_load_uninitialized,
    fun _ => exec_load_enabled⟩
  exact ⟨tableLimit s.cfg, exec_load_built hready hphase hie, toNat_tableLimit s.cfg⟩

end Sys2Proof.Machine
end

section
/-! Proofs: the dispatch-registry statements (42_dispatch_registry.md). -/

namespace Sys2Proof.Machine

/-! ### The words of the three commands (R64) -/

theorem decode_eq_reg_iff (cw : CmdWord) (i : Nat) : decode cw = .ok (.reg i) ↔
    cw &&& 0xFFFFF00F = 0x00000008 ∧ i = (cw.extractLsb' 4 8).toNat := by
  obtain ⟨-, -, -, -, -, -, -, regRow, -⟩ := everyRowDecodesAsPrinted cw
  exact regRow i

theorem decode_eq_disp_iff (cw : CmdWord) (i : Nat) : decode cw = .ok (.disp i) ↔
    cw &&& 0xFFFFF00F = 0x00000009 ∧ i = (cw.extractLsb' 4 8).toNat := by
  obtain ⟨-, -, -, -, -, -, -, -, dispRow, -⟩ := everyRowDecodesAsPrinted cw
  exact dispRow i

theorem decode_eq_ret_iff (cw : CmdWord) (i : Nat) : decode cw = .ok (.ret i) ↔
    cw &&& 0xFFFFF00F = 0x0000000A ∧ i = (cw.extractLsb' 4 8).toNat := by
  obtain ⟨-, -, -, -, -, -, -, -, -, retRow, -⟩ := everyRowDecodesAsPrinted cw
  exact retRow i

/-! ### The registry bank (R27, R105) -/

theorem validIrq_iff {c : Config} {i : Nat} : validIrq c i = true ↔ c.irqBase ≤ i ∧ i < c.irqBase + c.nIrq :=
  decide_eq_true_iff

theorem isBound_iff {s : State} {i : Nat} : s.isBound i = true ↔ validIrq s.cfg i = true ∧ (s.regAt i).bound = true :=
  Bool.and_eq_true_iff

theorem isBound_eq_false_iff {s : State} {i : Nat} :
    s.isBound i = false ↔ validIrq s.cfg i = false ∨ (s.regAt i).bound = false :=
  Bool.and_eq_false_iff

/-- An entry is read from the bank and the configuration alone. -/
theorem regAt_congr {s t : State} (i : Nat) (hcfg : t.cfg = s.cfg) (hreg : t.reg = s.reg) : t.regAt i = s.regAt i := by
  rw [State.regAt, State.regAt, hcfg, hreg]

theorem regAt_setReg_same {s : State} {i : Nat} (e : RegEntry) (h : i - s.cfg.irqBase < s.reg.length) :
    (s.setReg i e).regAt i = e := by
  rw [State.regAt, State.setReg_cfg, State.setReg_reg, List.getD_eq_getElem?_getD, List.getElem?_set_self h,
    Option.getD_some]

/-- Two identifiers of the range stand at two places of the bank. -/
theorem regAt_setReg_other {s : State} {i j : Nat} (e : RegEntry) (hi : s.cfg.irqBase ≤ i) (hj : s.cfg.irqBase ≤ j)
    (h : j ≠ i) : (s.setReg i e).regAt j = s.regAt j := by
  have places : i - s.cfg.irqBase ≠ j - s.cfg.irqBase := by omega
  rw [State.regAt, State.setReg_cfg, State.setReg_reg, List.getD_eq_getElem?_getD, List.getElem?_set_ne places,
    ← List.getD_eq_getElem?_getD, ← State.regAt]

/-! ### REG (R106) -/

theorem exec_reg_uninitialized {s : State} {i : Nat} (hready : s.Ready) (hphase : s.phase = .uninitialized) :
    exec (.reg i) s = .next { s with fault := 7, resp := some (.fault 7) } :=
  execReg_next.2 ⟨hready, .inl ⟨hphase, raise_eq s .registerBeforeInit⟩⟩

theorem exec_reg_invalid {s : State} {i : Nat} (hready : s.Ready) (hphase : s.phase ≠ .uninitialized)
    (hi : validIrq s.cfg i = false) : exec (.reg i) s = .next { s with resp := some (.status .invalidVector) } :=
  execReg_next.2 ⟨hready, .inr (.inl ⟨hphase, hi, rfl⟩)⟩

theorem exec_reg_bound {s : State} {i : Nat} (hready : s.Ready) (hphase : s.phase ≠ .uninitialized)
    (hi : s.isBound i = true) : exec (.reg i) s = .next { s with resp := some (.status .alreadyBound) } := by
  obtain ⟨valid, bound⟩ := isBound_iff.1 hi
  exact execReg_next.2 ⟨hready, .inr (.inr (.inl ⟨hphase, valid, bound, rfl⟩))⟩

/-- A tag of TAG_W bits is bound as it stands on the port (R62). -/
theorem exec_reg_free {s : State} {i : Nat} (hready : s.Ready) (hphase : s.phase ≠ .uninitialized)
    (hi : validIrq s.cfg i = true) (htag : s.ports.t < 2 ^ s.cfg.tagW) (hfree : (s.regAt i).bound = false) :
    exec (.reg i) s = .next { s.setReg i ⟨true, s.ports.h, s.ports.t⟩ with resp := some (.status .ok) } := by
  have tag : s.portT = s.ports.t := Nat.mod_eq_of_lt htag
  rw [← tag]
  exact execReg_next.2 ⟨hready, .inr (.inr (.inr ⟨hphase, hi, hfree, rfl⟩))⟩

/-- Settles O29: a free identifier takes one `State.setReg` (`exec_reg_free`), which writes its own entry and no
other; the other cases write nothing. -/
theorem regBindsAFreeIdentifier : Obligations.RegBindsAFreeIdentifier := by
  unfold Obligations.RegBindsAFreeIdentifier
  refine ⟨decode_eq_reg_iff, fun _ _ => exec_reg_uninitialized, ?outside, ?bound, ?free⟩
  case outside =>
    intro s i hready hphase hi
    exact exec_reg_invalid hready hphase (decide_eq_false hi)
  case bound =>
    intro s i hready hphase hlo hhi hbound
    exact exec_reg_bound hready hphase (isBound_iff.2 ⟨validIrq_iff.2 ⟨hlo, hhi⟩, hbound⟩)
  case free =>
    intro s i hready hphase hlo hhi hlength htag hfree
    have place : i - s.cfg.irqBase < s.reg.length := by omega
    exact ⟨_, exec_reg_free hready hphase (validIrq_iff.2 ⟨hlo, hhi⟩) htag hfree, regAt_setReg_same _ place,
      fun j hj hne => regAt_setReg_other _ hlo hj hne, rfl⟩

/-! ### Bound entries (R107) -/

theorem raise_keeps_registry {s t : State} {f : FaultName} (h : s.raise f = .next t) :
    t.cfg = s.cfg ∧ t.reg = s.reg := by
  rw [raise_next] at h
  subst h
  exact ⟨rfl, rfl⟩

/-- What a command does to the registry: none but REG writes the bank, and REG binds one free identifier of the
range (R106, R107). -/
theorem exec_registry {c : Instr} {s t : State} (h : exec c s = .next t) :
    (t.cfg = s.cfg ∧ t.reg = s.reg) ∨
    ∃ n r, validIrq s.cfg n = true ∧ (s.regAt n).bound = false ∧
      t = { s.setReg n ⟨true, s.portH, s.portT⟩ with resp := r } := by
  cases c with
  | reg n =>
    obtain ⟨-, ⟨-, h⟩ | ⟨-, -, rfl⟩ | ⟨-, -, -, rfl⟩ | ⟨-, valid, free, rfl⟩⟩ := execReg_next.1 h
    · exact .inl (raise_keeps_registry h)
    · exact .inl ⟨rfl, rfl⟩
    · exact .inl ⟨rfl, rfl⟩
    · exact .inr ⟨n, _, valid, free, rfl⟩
  | encode =>
    obtain ⟨-, rfl⟩ := execEncode_next.1 h
    exact .inl ⟨rfl, rfl⟩
  | decode =>
    obtain ⟨-, rfl⟩ := execDecode_next.1 h
    exact .inl ⟨rfl, rfl⟩
  | install v =>
    obtain ⟨-, ⟨-, h⟩ | ⟨-, rfl⟩⟩ := execInstall_next.1 h
    · exact .inl (raise_keeps_registry h)
    · exact .inl ⟨rfl, rfl⟩
  | rdslot v =>
    obtain ⟨-, ⟨-, h⟩ | ⟨-, rfl⟩⟩ := execRdslot_next.1 h
    · exact .inl (raise_keeps_registry h)
    · exact .inl ⟨rfl, rfl⟩
  | init =>
    obtain ⟨-, ⟨-, h⟩ | ⟨-, rfl⟩⟩ := execInit_next.1 h
    · exact .inl (raise_keeps_registry h)
    · exact .inl ⟨rfl, rfl⟩
  | load =>
    obtain ⟨-, ⟨-, h⟩ | ⟨-, -, h⟩ | ⟨-, -, rfl⟩⟩ := execLoad_next.1 h
    · exact .inl (raise_keeps_registry h)
    · exact .inl (raise_keeps_registry h)
    · exact .inl ⟨rfl, rfl⟩
  | setie b =>
    obtain ⟨-, ⟨-, -, h⟩ | ⟨-, rfl⟩⟩ := execSetie_next.1 h
    · exact .inl (raise_keeps_registry h)
    · exact .inl ⟨rfl, rfl⟩
  | disp i =>
    obtain ⟨-, ⟨-, h⟩ | ⟨-, -, rfl⟩ | ⟨-, -, rfl⟩⟩ := execDisp_next.1 h
    · exact .inl (raise_keeps_registry h)
    · exact .inl ⟨rfl, rfl⟩
    · exact .inl ⟨rfl, rfl⟩
  | ret i =>
    obtain ⟨-, ⟨-, rfl⟩ | ⟨-, h⟩⟩ := execRet_next.1 h
    · exact .inl ⟨rfl, rfl⟩
    · exact .inl (raise_keeps_registry h)
  | dlv v =>
    obtain ⟨-, ⟨-, h⟩ | ⟨-, -, -, -, h⟩ | ⟨-, -, -, -, rfl⟩⟩ := execDlv_next.1 h
    · exact .inl (raise_keeps_registry h)
    · exact .inl (raise_keeps_registry h)
    · exact .inl ⟨rfl, rfl⟩

/-- A command leaves the configuration and every bound entry as they are: REG writes an entry only where it finds it
free. -/
theorem exec_keeps_bound {c : Instr} {s t : State} {i : Nat} (hbound : s.isBound i = true) (h : exec c s = .next t) :
    t.cfg = s.cfg ∧ t.regAt i = s.regAt i := by
  obtain ⟨valid, bound⟩ := isBound_iff.1 hbound
  rcases exec_registry h with ⟨hcfg, hreg⟩ | ⟨n, r, validN, free, rfl⟩
  · exact ⟨hcfg, regAt_congr i hcfg hreg⟩
  · have hne : i ≠ n := by
      rintro rfl
      exact absurd (bound.symm.trans free) (by decide)
    exact ⟨rfl, regAt_setReg_other _ (validIrq_iff.1 validN).1 (validIrq_iff.1 valid).1 hne⟩

/-- A step leaves the configuration and every bound entry as they are: taking a word and waiting do not touch the
bank, and what remains is `exec_keeps_bound` or a fault. -/
theorem step_keeps_bound {s t : State} {i : Nat} (hbound : s.isBound i = true) (h : step s = .next t) :
    t.cfg = s.cfg ∧ t.regAt i = s.regAt i := by
  rcases step_next h with ⟨-, rfl⟩ | ⟨r, rest, -, ⟨c, -, h⟩ | ⟨e, -, -, h⟩⟩
  · exact ⟨rfl, rfl⟩
  · exact exec_keeps_bound (s := s.accept r rest) hbound h
  · obtain ⟨hcfg, hreg⟩ := raise_keeps_registry h
    exact ⟨hcfg, regAt_congr i hcfg hreg⟩

theorem step_keeps_isBound {s t : State} {i : Nat} (hbound : s.isBound i = true) (h : step s = .next t) :
    t.isBound i = true := by
  obtain ⟨hcfg, hentry⟩ := step_keeps_bound hbound h
  rwa [isBound_iff, hcfg, hentry, ← isBound_iff]

/-- Settles O30: the whole entry stays (`step_keeps_bound`). -/
theorem boundEntriesAreNeverRemoved : Obligations.BoundEntriesAreNeverRemoved := by
  unfold Obligations.BoundEntriesAreNeverRemoved
  intro s t i hbound hstep
  obtain ⟨-, hentry⟩ := step_keeps_bound hbound hstep
  exact ⟨step_keeps_isBound hbound hstep, congrArg RegEntry.handler hentry, congrArg RegEntry.tag hentry⟩

/-! ### DISP (R108, R109) -/

theorem exec_disp_inService {s : State} {i : Nat} (hready : s.Ready) (hi : i ∈ s.inService) :
    exec (.disp i) s = .next { s with fault := 8, resp := some (.fault 8) } :=
  execDisp_next.2 ⟨hready, .inl ⟨hi, raise_eq s .reentrantDispatch⟩⟩

theorem exec_disp_bound {s : State} {i : Nat} (hready : s.Ready) (hi : i ∉ s.inService) (hbound : s.isBound i = true) :
    exec (.disp i) s = .next { s.pushService i with
      resp := some (.call (s.regAt i).handler (s.regAt i).tag s.ports.c) } :=
  execDisp_next.2 ⟨hready, .inr (.inl ⟨hi, hbound, rfl⟩)⟩

theorem exec_disp_unhandled {s : State} {i : Nat} (hready : s.Ready) (hi : i ∉ s.inService)
    (hbound : s.isBound i = false) : exec (.disp i) s = .next { s with resp := some (.drop i) } :=
  execDisp_next.2 ⟨hready, .inr (.inr ⟨hi, hbound, rfl⟩)⟩

/-- Settles O33: an identifier has a handler exactly when `State.isBound`, the test of DISP, holds of it. -/
theorem dispCallsOrDrops : Obligations.DispCallsOrDrops := by
  unfold Obligations.DispCallsOrDrops
  refine ⟨decode_eq_disp_iff, fun _ _ => exec_disp_inService, ?call, ?drop⟩
  case call =>
    intro s i hready hi hvalid hbound
    exact exec_disp_bound hready hi (isBound_iff.2 ⟨hvalid, hbound⟩)
  case drop =>
    intro s i hready hi hunhandled
    exact exec_disp_unhandled hready hi (isBound_eq_false_iff.2 hunhandled)

/-! ### RET (R111) -/

theorem topService_of_append {s : State} {outer : List Nat} {j : Nat} (h : s.inService = outer ++ [j]) :
    s.topService = some j := by
  rw [State.topService, h, List.getLast?_concat]

theorem topService_of_nil {s : State} (h : s.inService = []) : s.topService = none := by
  rw [State.topService, h, List.getLast?_nil]

theorem exec_ret_top {s : State} {i : Nat} (hready : s.Ready) (h : s.topService = some i) :
    exec (.ret i) s = .next { s.popService with resp := some .done } :=
  execRet_next.2 ⟨hready, .inl ⟨h, rfl⟩⟩

theorem exec_ret_mismatch {s : State} {i : Nat} (hready : s.Ready) (h : s.topService ≠ some i) :
    exec (.ret i) s = .next { s with fault := 9, resp := some (.fault 9) } :=
  execRet_next.2 ⟨hready, .inr ⟨h, raise_eq s .retireMismatch⟩⟩

/-- Settles O34: RET tests the top of the stack, its last identifier (`topService_of_append`), and an empty stack has
none (`topService_of_nil`). -/
theorem retPopsTheInnermost : Obligations.RetPopsTheInnermost := by
  unfold Obligations.RetPopsTheInnermost
  refine ⟨decode_eq_ret_iff, ?pop, ?mismatch⟩
  case pop =>
    intro s outer i hready hstack
    have popped : s.inService.dropLast = outer := by rw [hstack, List.dropLast_concat]
    rw [exec_ret_top hready (topService_of_append hstack), State.popService, popped]
  case mismatch =>
    rintro s i hready (hempty | ⟨outer, j, hstack, hne⟩)
    · exact exec_ret_mismatch hready (by simp [topService_of_nil hempty])
    · exact exec_ret_mismatch hready (by simpa [topService_of_append hstack] using hne)

end Sys2Proof.Machine
end

section
/-! Proofs: the processor-interface statements (43_cpu_interface.md). -/

namespace Sys2Proof.Machine

/-! ### The words of the two commands (R64) -/

theorem decode_eq_dlv_iff (cw : CmdWord) (v : Nat) : decode cw = .ok (.dlv v) ↔
    cw &&& 0xFFFFF00F = 0x0000000B ∧ v = (cw.extractLsb' 4 8).toNat := by
  obtain ⟨-, -, -, -, -, -, -, -, -, -, dlvRow⟩ := everyRowDecodesAsPrinted cw
  exact dlvRow v

theorem decode_eq_setie_iff (cw : CmdWord) (b : Bool) : decode cw = .ok (.setie b) ↔
    cw &&& 0xFFFFEFFF = 0x00000007 ∧ b = cw.getLsbD 12 := by
  obtain ⟨-, -, -, -, -, -, setieRow, -⟩ := everyRowDecodesAsPrinted cw
  exact setieRow b

/-! ### The gates delivery has a meaning for (R120) -/

theorem decodeGate_eq_iff {w : DescWord} {f : GateFields} {nz : Bool} :
    decodeGate w = (f, nz) ↔ gateFields w = f ∧ rsvdNonzero w = nz :=
  Prod.mk_inj

theorem gateModelled_iff {w : DescWord} : gateModelled w = true ↔
    rsvdNonzero w = false ∧ ((gateFields w).type = 6 ∨ (gateFields w).type = 7) ∧ (gateFields w).size = 1 := by
  simp [gateModelled, decodeGate, and_assoc]

/-- A gate without a meaning fails one of the three tests; a size that is not 1 is 0, having one bit. -/
theorem gateModelled_eq_false_iff {w : DescWord} : gateModelled w = false ↔
    rsvdNonzero w = true ∨ ((gateFields w).type ≠ 6 ∧ (gateFields w).type ≠ 7) ∨ (gateFields w).size = 0 := by
  have notOne : ∀ size : BitVec 1, ¬ size = 1 ↔ size = 0 := by decide
  rw [← Bool.not_eq_true, gateModelled_iff, not_and_or, not_and_or, not_or, notOne, Bool.not_eq_false]

/-! ### DLV (R120) -/

theorem exec_dlv_undefined {s : State} {v : Nat} (hready : s.Ready)
    (h : s.idtrValid = false ∨ s.idtr.limit.toNat < 8 * v + 7 ∨ (gateFields (s.slot v)).p = 0) :
    exec (.dlv v) s = .next { s with fault := 10, resp := some (.fault 10) } :=
  execDlv_next.2 ⟨hready, .inl ⟨h, raise_eq s .undefinedDelivery⟩⟩

section
variable {s : State} {v : Nat} (hready : s.Ready) (hvalid : s.idtrValid = true)
  (hlimit : 8 * v + 7 ≤ s.idtr.limit.toNat) (hpresent : (gateFields (s.slot v)).p = 1)
include hready hvalid hlimit hpresent

theorem exec_dlv_unmodelled (h : gateModelled (s.slot v) = false) :
    exec (.dlv v) s = .next { s with fault := 11, resp := some (.fault 11) } := by
  have notAbsent : (gateFields (s.slot v)).p ≠ 0 := by simp [hpresent]
  exact execDlv_next.2 ⟨hready, .inr (.inl ⟨hvalid, hlimit, notAbsent, h, raise_eq s .unmodelledGate⟩)⟩

theorem exec_dlv_entry (h : gateModelled (s.slot v) = true) :
    exec (.dlv v) s = .next { s with resp := some (gateEntry (gateFields (s.slot v))) } := by
  have notAbsent : (gateFields (s.slot v)).p ≠ 0 := by simp [hpresent]
  exact execDlv_next.2 ⟨hready, .inr (.inr ⟨hvalid, hlimit, notAbsent, h, rfl⟩)⟩

end

/-- Settles O35: a present gate within the limit is delivered when `gateModelled` holds of its slot
(`exec_dlv_entry`); what that test asks of the fields and the reserved bits is `gateModelled_iff`. -/
theorem dlvDeliversThroughTheTable : Obligations.DlvDeliversThroughTheTable := by
  unfold Obligations.DlvDeliversThroughTheTable
  refine ⟨decode_eq_dlv_iff, fun _ _ => exec_dlv_undefined, ?unmodelled, ?entry⟩
  case unmodelled =>
    intro s v f nz hready hvalid hlimit hgate hpresent hfails
    obtain ⟨rfl, rfl⟩ := decodeGate_eq_iff.1 hgate
    exact exec_dlv_unmodelled hready hvalid hlimit hpresent (gateModelled_eq_false_iff.2 hfails)
  case entry =>
    intro s v f hready hvalid hlimit hgate hpresent htype hsize
    obtain ⟨rfl, hreserved⟩ := decodeGate_eq_iff.1 hgate
    exact exec_dlv_entry hready hvalid hlimit hpresent (gateModelled_iff.2 ⟨hreserved, htype, hsize⟩)

/-! ### SETIE (R125) -/

/-- Clearing the enable is allowed in every phase, setting it in Active. -/
theorem exec_setie_allowed {s : State} {b : Bool} (hready : s.Ready) (h : b = false ∨ s.phase = .active) :
    exec (.setie b) s = .next { s with ie := b, resp := some .done } :=
  execSetie_next.2 ⟨hready, .inr ⟨h, rfl⟩⟩

theorem exec_setie_beforeActive {s : State} (hready : s.Ready) (hphase : s.phase ≠ .active) :
    exec (.setie true) s = .next { s with fault := 6, resp := some (.fault 6) } :=
  execSetie_next.2 ⟨hready, .inl ⟨rfl, hphase, raise_eq s .enableBeforeLoad⟩⟩

/-- Settles O38: `exec_setie_allowed`, once for either value of the bit, and the fault of every phase before
Active. -/
theorem setieWritesTheEnable : Obligations.SetieWritesTheEnable := by
  unfold Obligations.SetieWritesTheEnable
  exact ⟨decode_eq_setie_iff, fun _ hready => exec_setie_allowed hready (.inl rfl),
    fun _ hready hphase => exec_setie_allowed hready (.inr hphase), fun _ => exec_setie_beforeActive⟩

end Sys2Proof.Machine
end

section
/-! Proofs: the exception statements (60_exceptions.md). -/

namespace Sys2Proof.Machine

/-! ### The fault table (R133) -/

/-- Every code is its name's place in R133's list, counted from 1. -/
theorem toNat_faultCode (f : FaultName) : (faultCode f).toNat = f.ctorIdx + 1 := by
  cases f <;> rfl

theorem faultCode_ne_zero (f : FaultName) : faultCode f ≠ 0 := by
  intro h
  have place := toNat_faultCode f
  rw [h] at place
  exact absurd place (Nat.succ_ne_zero _).symm

theorem faultCode_injective : Function.Injective faultCode := by
  intro f g h
  have samePlace : f.ctorIdx + 1 = g.ctorIdx + 1 := by rw [← toNat_faultCode, h, toNat_faultCode]
  rw [← FaultName.ofNat_ctorIdx f, Nat.succ.inj samePlace, FaultName.ofNat_ctorIdx g]

/-- Codes 12 to 15 name no fault (R133). -/
theorem toNat_faultCode_le (f : FaultName) : (faultCode f).toNat ≤ 11 := by
  cases f <;> decide

/-- R133's table: the commands that raise a fault, and its cause in the state the command finds. No command raises
IllegalCommand: its cause is a word that is none. -/
def Raises (s : State) (i : Instr) : FaultName → Prop
  | .illegalCommand => False
  | .slotOutOfRange => ∃ v, (i = .install v ∨ i = .rdslot v) ∧ s.cfg.nSlots ≤ v
  | .initWhileEnabled => i = .init ∧ s.ie = true
  | .loadBeforeInit => i = .load ∧ s.phase = .uninitialized
  | .loadWhileEnabled => i = .load ∧ s.phase ≠ .uninitialized ∧ s.ie = true
  | .enableBeforeLoad => i = .setie true ∧ s.phase ≠ .active
  | .registerBeforeInit => (∃ n, i = .reg n) ∧ s.phase = .uninitialized
  | .reentrantDispatch => ∃ n, i = .disp n ∧ n ∈ s.inService
  | .retireMismatch => ∃ n, i = .ret n ∧ s.topService ≠ some n
  | .undefinedDelivery => ∃ v, i = .dlv v ∧ (s.idtrValid = false ∨ s.idtr.limit.toNat < 8 * v + 7 ∨
      (gateFields (s.slot v)).p = 0)
  | .unmodelledGate => ∃ v, i = .dlv v ∧ s.idtrValid = true ∧ 8 * v + 7 ≤ s.idtr.limit.toNat ∧
      (gateFields (s.slot v)).p = 1 ∧ (rsvdNonzero (s.slot v) = true ∨
        ((gateFields (s.slot v)).type ≠ 6 ∧ (gateFields (s.slot v)).type ≠ 7) ∨ (gateFields (s.slot v)).size = 0)

/-- A command that finds the cause of a fault it raises, raises it. -/
theorem exec_of_raises {s : State} {i : Instr} {f : FaultName} (hready : s.Ready) (h : Raises s i f) :
    exec i s = .next { s with fault := faultCode f, resp := some (.fault (faultCode f)) } := by
  cases f with
  | illegalCommand => exact h.elim
  | slotOutOfRange =>
    obtain ⟨v, rfl | rfl, hv⟩ := h
    · exact exec_install_beyond hready hv
    · exact exec_rdslot_beyond hready hv
  | initWhileEnabled =>
    obtain ⟨rfl, hie⟩ := h
    exact exec_init_enabled hready hie
  | loadBeforeInit =>
    obtain ⟨rfl, hphase⟩ := h
    exact exec_load_uninitialized hready hphase
  | loadWhileEnabled =>
    obtain ⟨rfl, hphase, hie⟩ := h
    exact exec_load_enabled hready hphase hie
  | enableBeforeLoad =>
    obtain ⟨rfl, hphase⟩ := h
    exact exec_setie_beforeActive hready hphase
  | registerBeforeInit =>
    obtain ⟨⟨n, rfl⟩, hphase⟩ := h
    exact exec_reg_uninitialized hready hphase
  | reentrantDispatch =>
    obtain ⟨n, rfl, hn⟩ := h
    exact exec_disp_inService hready hn
  | retireMismatch =>
    obtain ⟨n, rfl, htop⟩ := h
    exact exec_ret_mismatch hready htop
  | undefinedDelivery =>
    obtain ⟨v, rfl, hcause⟩ := h
    exact exec_dlv_undefined hready hcause
  | unmodelledGate =>
    obtain ⟨v, rfl, hvalid, hlimit, hpresent, hgate⟩ := h
    exact exec_dlv_unmodelled hready hvalid hlimit hpresent (gateModelled_eq_false_iff.2 hgate)

theorem fault_of_raise {s t : State} {f : FaultName} (h : s.raise f = .next t) : t.fault = faultCode f := by
  rw [raise_next] at h
  rw [h]

/-- A performed command leaves `fault` as it is, or found the cause of a fault it raises and wrote that fault's
code. -/
theorem exec_fault {i : Instr} {s t : State} (h : exec i s = .next t) :
    t.fault = s.fault ∨ ∃ f, Raises s i f ∧ t.fault = faultCode f := by
  cases i with
  | encode =>
    obtain ⟨-, rfl⟩ := execEncode_next.1 h
    exact .inl rfl
  | decode =>
    obtain ⟨-, rfl⟩ := execDecode_next.1 h
    exact .inl rfl
  | install v =>
    obtain ⟨-, ⟨hv, h⟩ | ⟨-, rfl⟩⟩ := execInstall_next.1 h
    · exact .inr ⟨.slotOutOfRange, ⟨v, .inl rfl, hv⟩, fault_of_raise h⟩
    · exact .inl rfl
  | rdslot v =>
    obtain ⟨-, ⟨hv, h⟩ | ⟨-, rfl⟩⟩ := execRdslot_next.1 h
    · exact .inr ⟨.slotOutOfRange, ⟨v, .inr rfl, hv⟩, fault_of_raise h⟩
    · exact .inl rfl
  | init =>
    obtain ⟨-, ⟨hie, h⟩ | ⟨-, rfl⟩⟩ := execInit_next.1 h
    · exact .inr ⟨.initWhileEnabled, ⟨rfl, hie⟩, fault_of_raise h⟩
    · exact .inl rfl
  | load =>
    obtain ⟨-, ⟨hphase, h⟩ | ⟨hphase, hie, h⟩ | ⟨-, -, rfl⟩⟩ := execLoad_next.1 h
    · exact .inr ⟨.loadBeforeInit, ⟨rfl, hphase⟩, fault_of_raise h⟩
    · exact .inr ⟨.loadWhileEnabled, ⟨rfl, hphase, hie⟩, fault_of_raise h⟩
    · exact .inl rfl
  | setie b =>
    obtain ⟨-, ⟨rfl, hphase, h⟩ | ⟨-, rfl⟩⟩ := execSetie_next.1 h
    · exact .inr ⟨.enableBeforeLoad, ⟨rfl, hphase⟩, fault_of_raise h⟩
    · exact .inl rfl
  | reg n =>
    obtain ⟨-, ⟨hphase, h⟩ | ⟨-, -, rfl⟩ | ⟨-, -, -, rfl⟩ | ⟨-, -, -, rfl⟩⟩ := execReg_next.1 h
    · exact .inr ⟨.registerBeforeInit, ⟨⟨n, rfl⟩, hphase⟩, fault_of_raise h⟩
    all_goals exact .inl rfl
  | disp n =>
    obtain ⟨-, ⟨hn, h⟩ | ⟨-, -, rfl⟩ | ⟨-, -, rfl⟩⟩ := execDisp_next.1 h
    · exact .inr ⟨.reentrantDispatch, ⟨n, rfl, hn⟩, fault_of_raise h⟩
    all_goals exact .inl rfl
  | ret n =>
    obtain ⟨-, ⟨-, rfl⟩ | ⟨htop, h⟩⟩ := execRet_next.1 h
    · exact .inl rfl
    · exact .inr ⟨.retireMismatch, ⟨n, rfl, htop⟩, fault_of_raise h⟩
  | dlv v =>
    obtain ⟨-, ⟨hcause, h⟩ | ⟨hvalid, hlimit, hpresent, hgate, h⟩ | ⟨-, -, -, -, rfl⟩⟩ := execDlv_next.1 h
    · exact .inr ⟨.undefinedDelivery, ⟨v, rfl, hcause⟩, fault_of_raise h⟩
    · exact .inr ⟨.unmodelledGate, ⟨v, rfl, hvalid, hlimit, (BitVec.eq_zero_or_eq_one _).resolve_left hpresent,
        gateModelled_eq_false_iff.1 hgate⟩, fault_of_raise h⟩
    · exact .inl rfl

/-- The code after a command of a ready block is a fault's exactly when the command found that fault's cause. -/
theorem exec_fault_iff {i : Instr} {s t : State} (hready : s.Ready) (h : exec i s = .next t) (f : FaultName) :
    t.fault = faultCode f ↔ Raises s i f := by
  constructor
  · intro hf
    rcases exec_fault h with kept | ⟨g, hg, hcode⟩
    · exact absurd (hf.symm.trans (kept.trans hready.2)) (faultCode_ne_zero f)
    · exact faultCode_injective (hf.symm.trans hcode) ▸ hg
  · intro hf
    have found := exec_of_raises hready hf
    rw [h] at found
    injection found with ht
    rw [ht]

/-- No command raises a code above 11 (R133). -/
theorem exec_fault_le {i : Instr} {s t : State} (hready : s.Ready) (h : exec i s = .next t) : t.fault.toNat ≤ 11 := by
  rcases exec_fault h with kept | ⟨f, -, hcode⟩
  · rw [kept, hready.2]
    decide
  · rw [hcode]
    exact toNat_faultCode_le f

/-- A step of a ready block that takes a word ends in code 1 exactly when the word is illegal (R65, R133). -/
theorem step_fault_eq_one_iff {s t : State} {r : Request} {rest : List Request} (hready : s.Ready)
    (hpending : s.pending = r :: rest) (h : step s = .next t) : t.fault = 1 ↔ ∃ e, decode r.cw = .error e := by
  cases hdecode : decode r.cw with
  | ok i =>
    rw [step_legal hpending hdecode] at h
    have notRaised : t.fault ≠ 1 := (exec_fault_iff (s := s.accept r rest) hready h .illegalCommand).1
    exact iff_of_false notRaised nofun
  | error e =>
    rw [step_illegal_ready hready hpending hdecode] at h
    injection h with ht
    exact iff_of_true (ht ▸ rfl) ⟨e, rfl⟩

/-- Settles O17: each code is its name's, raised as `Raises`, the table of R133, says (`exec_fault_iff`); code 1 is
left to the illegal words. -/
theorem faultCodesHaveTheirCauses : Obligations.FaultCodesHaveTheirCauses := by
  unfold Obligations.FaultCodesHaveTheirCauses
  refine ⟨?commands, fun _ _ _ _ => step_fault_eq_one_iff⟩
  intro s t i hready h
  have raised := exec_fault_iff hready h
  exact ⟨(raised .illegalCommand).1, raised .slotOutOfRange, raised .initWhileEnabled, raised .loadBeforeInit,
    raised .loadWhileEnabled, raised .enableBeforeLoad, raised .registerBeforeInit, raised .reentrantDispatch,
    raised .retireMismatch, raised .undefinedDelivery, raised .unmodelledGate, exec_fault_le hready h⟩

end Sys2Proof.Machine
end

section
/-! Proofs: the reset statement (70_reset_and_hazards.md). -/

namespace Sys2Proof.Machine

/-- Every identifier, the registry's own or one beyond it, resets to an unbound entry (R27). -/
theorem regAt_resetWith (c : Config) (reqs : List Request) (i : Nat) :
    (State.resetWith c reqs).regAt i = RegEntry.unbound :=
  List.getD_eq_getElem?_getD.trans (List.getElem?_getD_replicate_default_eq ..)

/-- Settles O51: the slots by `slot_resetWith`, the registry by `regAt_resetWith`; the other elements are fields that
`State.resetWith` sets. -/
theorem resetLeavesTheSpecifiedValues : Obligations.ResetLeavesTheSpecifiedValues := by
  unfold Obligations.ResetLeavesTheSpecifiedValues
  intro c reqs
  have unbound (i : Nat) : ((State.resetWith c reqs).regAt i).bound = false :=
    congrArg RegEntry.bound (regAt_resetWith c reqs i)
  exact ⟨slot_resetWith c reqs, rfl, rfl, rfl, unbound, rfl, rfl⟩

end Sys2Proof.Machine
end

section
/-! Proofs: command words and their fields (30_encoding.md R61, R64 to R66). -/

namespace Sys2Proof

open Laws.EncodedFields (opOf idxOf bOf)

theorem idxField_lt (cw : CmdWord) : idxField cw < 256 := (cw.extractLsb' 4 8).isLt

/-- The fields of the word of a well-formed command, for every command at once. -/
theorem encodedFields (i : Instr) : Laws.EncodedFields.Statement i := by
  cases i with
  | encode => exact Laws.EncodedFields.encode
  | decode => exact Laws.EncodedFields.decode
  | install v => exact Laws.EncodedFields.install v
  | rdslot v => exact Laws.EncodedFields.rdslot v
  | init => exact Laws.EncodedFields.init
  | load => exact Laws.EncodedFields.load
  | setie b => exact Laws.EncodedFields.setie b
  | reg n => exact Laws.EncodedFields.reg n
  | disp n => exact Laws.EncodedFields.disp n
  | ret n => exact Laws.EncodedFields.ret n
  | dlv v => exact Laws.EncodedFields.dlv v

/-- A row whose one free field is `idx`, read by its fields: the field fits its eight bits (R61, R64). -/
theorem idxRow_iff (cw : CmdWord) {op v : Nat} (h : op < 16) :
    cw &&& 0xFFFFF00F = BitVec.ofNat 32 op ∧ v = idxField cw ↔
      fitsIdx v = true ∧ opField cw = op ∧ idxField cw = v ∧ bField cw = false ∧ rsvdField cw = 0 := by
  rw [and_idxMask cw h, fitsIdx, decide_eq_true_iff]
  constructor
  · rintro ⟨⟨ho, hb, hr⟩, rfl⟩
    exact ⟨idxField_lt cw, ho, rfl, hb, hr⟩
  · rintro ⟨-, ho, rfl, hb, hr⟩
    exact ⟨⟨ho, hb, hr⟩, rfl⟩

/-- The one word of a row with no free field, read by its fields (R64). -/
theorem fixedRow_iff (cw : CmdWord) {op : Nat} (h : op < 16) : cw &&& 0xFFFFFFFF = BitVec.ofNat 32 op ↔
    true = true ∧ opField cw = op ∧ idxField cw = 0 ∧ bField cw = false ∧ rsvdField cw = 0 :=
  (and_fullMask cw h).trans (and_iff_right rfl).symm

/-- The decoder by the fields of the word (R61, R64): a command is read from exactly the word whose `op` is the
command's and whose other fields are the command's own, every field it does not have being 0. -/
theorem decode_eq_ok_iff_fields (cw : CmdWord) (i : Instr) : decode cw = .ok i ↔
    i.wellFormed = true ∧ opField cw = opOf i ∧ idxField cw = idxOf i ∧ bField cw = bOf i ∧ rsvdField cw = 0 := by
  obtain ⟨encodeRow, decodeRow, installRow, rdslotRow, initRow, loadRow, setieRow, regRow, dispRow, retRow, dlvRow⟩ :=
    everyRowDecodesAsPrinted cw
  cases i with
  | encode => exact encodeRow.trans (fixedRow_iff cw (by decide))
  | decode => exact decodeRow.trans (fixedRow_iff cw (by decide))
  | install v => exact (installRow v).trans (idxRow_iff cw (by decide))
  | rdslot v => exact (rdslotRow v).trans (idxRow_iff cw (by decide))
  | init => exact initRow.trans (fixedRow_iff cw (by decide))
  | load => exact loadRow.trans (fixedRow_iff cw (by decide))
  | setie b =>
    rw [setieRow, and_enableMask]
    constructor
    · rintro ⟨⟨ho, hi, hr⟩, rfl⟩
      exact ⟨rfl, ho, hi, rfl, hr⟩
    · rintro ⟨-, ho, hi, hb, hr⟩
      exact ⟨⟨ho, hi, hr⟩, hb.symm⟩
  | reg n => exact (regRow n).trans (idxRow_iff cw (by decide))
  | disp n => exact (dispRow n).trans (idxRow_iff cw (by decide))
  | ret n => exact (retRow n).trans (idxRow_iff cw (by decide))
  | dlv v => exact (dlvRow v).trans (idxRow_iff cw (by decide))

/-- Settles O8: the fields of the command's word (`encodedFields`) are those the decoder reads it by
(`decode_eq_ok_iff_fields`). -/
theorem encodedCommandsDecodeBack : Obligations.EncodedCommandsDecodeBack := by
  unfold Obligations.EncodedCommandsDecodeBack
  intro i hwf
  exact (decode_eq_ok_iff_fields _ i).2 ⟨hwf, encodedFields i hwf⟩

/-- Settles O9: the word and the encoding of its command have the same fields, so they are the same (`word_ext`). -/
theorem decodedWordsAreTheirEncodings : Obligations.DecodedWordsAreTheirEncodings := by
  unfold Obligations.DecodedWordsAreTheirEncodings
  intro cw i hdecode
  obtain ⟨hwf, hop, hidx, hb, hrsvd⟩ := (decode_eq_ok_iff_fields cw i).1 hdecode
  obtain ⟨eop, eidx, eb, ersvd⟩ := encodedFields i hwf
  exact ⟨hwf, word_ext (eop.trans hop.symm) (eidx.trans hidx.symm) (eb.trans hb.symm) (ersvd.trans hrsvd.symm)⟩

/-- Settles O12: rows that select one word are one row (`row_unique_of_selects`) and the map lists none twice, having
no match twice; the decoder answers from a row that selects the word (`decode_eq_ok_iff`). -/
theorem opcodeRowsAreDisjoint : Obligations.OpcodeRowsAreDisjoint := by
  unfold Obligations.OpcodeRowsAreDisjoint
  intro cw
  refine ⟨?disjoint, ?selected, ?total⟩
  case disjoint =>
    have nodup : (opcodeMap.map OpRow.pat).Nodup := by decide
    refine (List.Nodup.of_map _ nodup).imp_of_mem fun hr hr' hne => ?_
    rintro ⟨hs, hs'⟩
    exact hne (row_unique_of_selects hr hr' hs hs')
  case selected =>
    constructor
    · rintro ⟨r, hr, hs⟩
      exact ⟨_, decode_of_selects hr hs⟩
    · rintro ⟨i, hdecode⟩
      obtain ⟨r, hr, hs, -⟩ := decode_ok hdecode
      exact ⟨r, hr, hs⟩
  case total =>
    cases hdecode : decode cw with
    | ok i => exact .inl ⟨i, rfl⟩
    | error e => exact .inr ⟨e, rfl⟩

/-- Settles O13: the decoder evaluated at each word. -/
theorem specWordsDecode : Obligations.SpecWordsDecode := by
  unfold Obligations.SpecWordsDecode
  decide

end Sys2Proof
end

section
/-! Proofs: what a command can do, said once for all eleven. -/

namespace Sys2Proof.Machine

/-! ### The effect of a command -/

/-- The answers a command can give while it changes no element of the block and raises no fault. -/
def Answers (s : State) : Instr → Response → Prop
  | .encode, r => r = .word (encodeGate s.portF)
  | .decode, r => r = .fields (gateFields s.portW) (rsvdNonzero s.portW)
  | .rdslot v, r => v < s.cfg.nSlots ∧ r = .word (s.slot v)
  | .reg i, r => s.phase ≠ .uninitialized ∧ ((validIrq s.cfg i = false ∧ r = .status .invalidVector) ∨
      (validIrq s.cfg i = true ∧ (s.regAt i).bound = true ∧ r = .status .alreadyBound))
  | .disp i, r => i ∉ s.inService ∧ s.isBound i = false ∧ r = .drop i
  | .dlv v, r => s.idtrValid = true ∧ 8 * v + 7 ≤ s.idtr.limit.toNat ∧ (gateFields (s.slot v)).p ≠ 0 ∧
      gateModelled (s.slot v) = true ∧ r = gateEntry (gateFields (s.slot v))
  | _, _ => False

/-- What a command of a ready block can leave: a fault of R133's table, an answer alone, or the one write that is the
command's own. -/
inductive Effect (s : State) : Instr → State → Prop
  | raises {i : Instr} {f : FaultName} (h : Raises s i f) :
      Effect s i { s with fault := faultCode f, resp := some (.fault (faultCode f)) }
  | answers {i : Instr} {r : Response} (h : Answers s i r) : Effect s i { s with resp := some r }
  | install {v : Nat} (h : v < s.cfg.nSlots) :
      Effect s (.install v) { s.setSlot v (encodeGate s.portF) with resp := some .done }
  | init (h : s.ie = false) : Effect s .init (initialised s)
  | load (hphase : s.phase ≠ .uninitialized) (hie : s.ie = false) :
      Effect s .load { s.installIdtr (loadImage s.cfg) with resp := some (.idtr (loadImage s.cfg).image) }
  | setie {b : Bool} (h : b = false ∨ s.phase = .active) : Effect s (.setie b) { s with ie := b, resp := some .done }
  | reg {i : Nat} (hphase : s.phase ≠ .uninitialized) (hvalid : validIrq s.cfg i = true)
      (hfree : (s.regAt i).bound = false) :
      Effect s (.reg i) { s.setReg i ⟨true, s.portH, s.portT⟩ with resp := some (.status .ok) }
  | disp {i : Nat} (hi : i ∉ s.inService) (hbound : s.isBound i = true) :
      Effect s (.disp i) { s.pushService i with resp := some (.call (s.regAt i).handler (s.regAt i).tag s.portC) }
  | ret {i : Nat} (h : s.topService = some i) : Effect s (.ret i) { s.popService with resp := some .done }

theorem Effect.of_raise {s t : State} {i : Instr} {f : FaultName} (h : Raises s i f) (ht : s.raise f = .next t) :
    Effect s i t := by
  rw [raise_next] at ht
  exact ht ▸ .raises h

/-- A performed command has one of the effects of a ready block. -/
theorem exec_effect {i : Instr} {s t : State} (h : exec i s = .next t) : s.Ready ∧ Effect s i t := by
  cases i with
  | encode =>
    obtain ⟨hready, rfl⟩ := execEncode_next.1 h
    exact ⟨hready, .answers rfl⟩
  | decode =>
    obtain ⟨hready, rfl⟩ := execDecode_next.1 h
    exact ⟨hready, .answers rfl⟩
  | install v =>
    obtain ⟨hready, ⟨hv, h⟩ | ⟨hv, rfl⟩⟩ := execInstall_next.1 h
    · exact ⟨hready, .of_raise (f := .slotOutOfRange) ⟨v, .inl rfl, hv⟩ h⟩
    · exact ⟨hready, .install hv⟩
  | rdslot v =>
    obtain ⟨hready, ⟨hv, h⟩ | ⟨hv, rfl⟩⟩ := execRdslot_next.1 h
    · exact ⟨hready, .of_raise (f := .slotOutOfRange) ⟨v, .inr rfl, hv⟩ h⟩
    · exact ⟨hready, .answers ⟨hv, rfl⟩⟩
  | init =>
    obtain ⟨hready, ⟨hie, h⟩ | ⟨hie, rfl⟩⟩ := execInit_next.1 h
    · exact ⟨hready, .of_raise (f := .initWhileEnabled) ⟨rfl, hie⟩ h⟩
    · exact ⟨hready, .init hie⟩
  | load =>
    obtain ⟨hready, ⟨hphase, h⟩ | ⟨hphase, hie, h⟩ | ⟨hphase, hie, rfl⟩⟩ := execLoad_next.1 h
    · exact ⟨hready, .of_raise (f := .loadBeforeInit) ⟨rfl, hphase⟩ h⟩
    · exact ⟨hready, .of_raise (f := .loadWhileEnabled) ⟨rfl, hphase, hie⟩ h⟩
    · exact ⟨hready, .load hphase hie⟩
  | setie b =>
    obtain ⟨hready, ⟨rfl, hphase, h⟩ | ⟨hallowed, rfl⟩⟩ := execSetie_next.1 h
    · exact ⟨hready, .of_raise (f := .enableBeforeLoad) ⟨rfl, hphase⟩ h⟩
    · exact ⟨hready, .setie hallowed⟩
  | reg n =>
    obtain ⟨hready, ⟨hphase, h⟩ | ⟨hphase, hinvalid, rfl⟩ | ⟨hphase, hvalid, hbound, rfl⟩ |
      ⟨hphase, hvalid, hfree, rfl⟩⟩ := execReg_next.1 h
    · exact ⟨hready, .of_raise (f := .registerBeforeInit) ⟨⟨n, rfl⟩, hphase⟩ h⟩
    · exact ⟨hready, .answers ⟨hphase, .inl ⟨hinvalid, rfl⟩⟩⟩
    · exact ⟨hready, .answers ⟨hphase, .inr ⟨hvalid, hbound, rfl⟩⟩⟩
    · exact ⟨hready, .reg hphase hvalid hfree⟩
  | disp n =>
    obtain ⟨hready, ⟨hn, h⟩ | ⟨hn, hbound, rfl⟩ | ⟨hn, hfree, rfl⟩⟩ := execDisp_next.1 h
    · exact ⟨hready, .of_raise (f := .reentrantDispatch) ⟨n, rfl, hn⟩ h⟩
    · exact ⟨hready, .disp hn hbound⟩
    · exact ⟨hready, .answers ⟨hn, hfree, rfl⟩⟩
  | ret n =>
    obtain ⟨hready, ⟨htop, rfl⟩ | ⟨htop, h⟩⟩ := execRet_next.1 h
    · exact ⟨hready, .ret htop⟩
    · exact ⟨hready, .of_raise (f := .retireMismatch) ⟨n, rfl, htop⟩ h⟩
  | dlv v =>
    obtain ⟨hready, ⟨hcause, h⟩ | ⟨hvalid, hlimit, hpresent, hgate, h⟩ | ⟨hvalid, hlimit, hpresent, hgate, rfl⟩⟩ :=
      execDlv_next.1 h
    · exact ⟨hready, .of_raise (f := .undefinedDelivery) ⟨v, rfl, hcause⟩ h⟩
    · exact ⟨hready, .of_raise (f := .unmodelledGate) ⟨v, rfl, hvalid, hlimit,
        (BitVec.eq_zero_or_eq_one _).resolve_left hpresent, gateModelled_eq_false_iff.1 hgate⟩ h⟩
    · exact ⟨hready, .answers ⟨hvalid, hlimit, hpresent, hgate, rfl⟩⟩

/-- A ready block that can give an answer alone, does. -/
theorem exec_of_answers {s : State} {i : Instr} {r : Response} (hready : s.Ready) (h : Answers s i r) :
    exec i s = .next { s with resp := some r } := by
  cases i with
  | encode =>
    subst h
    exact exec_encode_ready hready
  | decode =>
    subst h
    exact exec_decode_ready hready
  | rdslot v =>
    obtain ⟨hv, rfl⟩ := h
    exact exec_rdslot_inside hready hv
  | reg i =>
    obtain ⟨hphase, ⟨hinvalid, rfl⟩ | ⟨hvalid, hbound, rfl⟩⟩ := h
    · exact exec_reg_invalid hready hphase hinvalid
    · exact exec_reg_bound hready hphase (isBound_iff.2 ⟨hvalid, hbound⟩)
  | disp i =>
    obtain ⟨hi, hfree, rfl⟩ := h
    exact exec_disp_unhandled hready hi hfree
  | dlv v =>
    obtain ⟨hvalid, hlimit, hpresent, hgate, rfl⟩ := h
    exact execDlv_next.2 ⟨hready, .inr (.inr ⟨hvalid, hlimit, hpresent, hgate, rfl⟩)⟩
  | _ => exact h.elim

/-- Each effect is that of the command: `Effect` says all a command of a ready block can do, and no more. -/
theorem exec_of_effect {i : Instr} {s t : State} (hready : s.Ready) (h : Effect s i t) : exec i s = .next t := by
  cases h with
  | raises h => exact exec_of_raises hready h
  | answers h => exact exec_of_answers hready h
  | install hv => exact exec_install_inside hready hv
  | init hie => exact exec_init_disabled hready hie
  | load hphase hie => exact exec_load_built hready hphase hie
  | setie hallowed => exact exec_setie_allowed hready hallowed
  | reg hphase hvalid hfree => exact execReg_next.2 ⟨hready, .inr (.inr (.inr ⟨hphase, hvalid, hfree, rfl⟩))⟩
  | disp hi hbound => exact exec_disp_bound hready hi hbound
  | ret htop => exact exec_ret_top hready htop

/-- A step that takes a word, by the effect of its command; an illegal word raises IllegalCommand. -/
theorem step_effect {s t : State} (h : step s = .next t) :
    (s.pending = [] ∧ t = s.idle) ∨
    ∃ r rest, s.pending = r :: rest ∧ (s.accept r rest).Ready ∧
      ((∃ i, decode r.cw = .ok i ∧ Effect (s.accept r rest) i t) ∨
        ((∃ e, decode r.cw = .error e) ∧ t = { s.accept r rest with fault := 1, resp := some (.fault 1) })) := by
  rcases step_next h with hwait | ⟨r, rest, hpending, ⟨i, hdecode, h⟩ | ⟨e, hdecode, hready, h⟩⟩
  · exact .inl hwait
  · obtain ⟨hready, h⟩ := exec_effect h
    exact .inr ⟨r, rest, hpending, hready, .inl ⟨i, hdecode, h⟩⟩
  · exact .inr ⟨r, rest, hpending, hready, .inr ⟨⟨e, hdecode⟩, raise_next.1 h⟩⟩

end Sys2Proof.Machine
end

section
/-! Proofs: the invariant of a run (10_state.md R28, R31). -/

namespace Sys2Proof.Machine

/-! ### The facts the invariant turns on -/

/-- The bounds R7 puts on the table's size. -/
theorem nSlots_of_configValid {c : Config} (h : configValid c = true) : 1 ≤ c.nSlots ∧ c.nSlots ≤ 256 := by
  rw [configValid, decide_eq_true_iff] at h
  exact ⟨h.1, h.2.1⟩

/-- The reduction mod 2^16 in the limit never changes it (R96). -/
theorem toNat_tableLimit_valid {c : Config} (h : configValid c = true) : (tableLimit c).toNat = 8 * c.nSlots - 1 := by
  obtain ⟨hlo, hhi⟩ := nSlots_of_configValid h
  rw [toNat_tableLimit]
  omega

/-- No word INIT writes has a reserved bit (R69, R92). -/
theorem initWord_and_rsvdMask (c : Config) (v : Nat) : initWord c v &&& rsvdMask = 0 := by
  cases h : stubOf c v with
  | some stub => rw [initWord_of_serviced h, encodeGate_and_rsvdMask]
  | none =>
    rw [initWord_of_unserviced h]
    exact BitVec.zero_and

/-- INIT keeps Active and only Active (R94). -/
theorem nextPhaseInit_active_iff (p : Phase) : nextPhaseInit p = .active ↔ p = .active := by
  cases p <;> decide

/-- After a free identifier is bound, every bound one is bound still. -/
theorem isBound_setReg {s : State} {i j : Nat} (e : RegEntry) (hvalid : validIrq s.cfg i = true)
    (hfree : (s.regAt i).bound = false) (hj : s.isBound j = true) : (s.setReg i e).isBound j = true := by
  obtain ⟨hvalidj, hboundj⟩ := isBound_iff.1 hj
  have hne : j ≠ i := by
    rintro rfl
    exact absurd (hboundj.symm.trans hfree) (by decide)
  refine isBound_iff.2 ⟨hvalidj, ?_⟩
  rw [regAt_setReg_other e (validIrq_iff.1 hvalid).1 (validIrq_iff.1 hvalidj).1 hne, hboundj]

/-! ### Reset and every step (R31) -/

theorem inv_resetWith (c : Config) (reqs : List Request) (h : configValid c = true) : (State.resetWith c reqs).Inv where
  cfgValid := h
  memWf := State.wf_resetWith c reqs
  memInTable := nofun
  regLength := List.length_replicate
  tagFits e he := by
    rw [List.eq_of_mem_replicate he]
    exact Nat.two_pow_pos _
  faultNamed := Nat.zero_le _
  enabledActive := nofun
  validActive := by simp [State.resetWith]
  imageLimit := nofun
  imageBase := nofun
  serviceBound := nofun
  serviceNodup := List.nodup_nil
  reservedClear v _ := by
    rw [slot_resetWith]
    exact BitVec.zero_and

/-- Settles O46: `inv_resetWith`, of which `State.reset` is the case of the example configuration. -/
theorem invariantHoldsAtReset : Obligations.InvariantHoldsAtReset := by
  unfold Obligations.InvariantHoldsAtReset
  exact ⟨inv_resetWith, inv_resetWith Config.e4 [] (by decide)⟩

/-- The host's side of the state and the response are no part of the invariant. -/
theorem State.Inv.withHost {s : State} (h : s.Inv) (pending : List Request) (ports : Ports) (resp : Option Response) :
    State.Inv { s with pending := pending, ports := ports, resp := resp } := { h with }

theorem inv_setSlot {s : State} {v : Nat} {w : DescWord} (h : s.Inv) (hv : v < s.cfg.nSlots) (hw : w &&& rsvdMask = 0) :
    (s.setSlot v w).Inv :=
  { h with
    memWf := wf_setSlot s v w h.memWf
    memInTable := inTable_setSlot w hv h.memInTable
    reservedClear := fun u hu => by
      by_cases huv : u = v
      · rw [huv, slot_setSlot_same s v w h.memWf, hw]
      · rw [slot_setSlot_other s w huv, h.reservedClear u hu] }

theorem inv_initialised {s : State} (h : s.Inv) (hie : s.ie = false) : (initialised s).Inv :=
  { h with
    memWf := wf_setSlots s _ h.memWf _
    memInTable := inTable_setSlots _ h.memInTable _ le_rfl
    enabledActive := fun enabled => absurd (hie.symm.trans enabled) (by decide)
    validActive := h.validActive.trans (nextPhaseInit_active_iff s.phase).symm
    reservedClear := fun v hv => by rw [slot_initialised h.memWf hv, initWord_and_rsvdMask] }

theorem inv_installIdtr {s : State} (h : s.Inv) : (s.installIdtr (loadImage s.cfg)).Inv :=
  { h with
    enabledActive := fun _ => rfl
    validActive := iff_of_true rfl rfl
    imageLimit := fun _ => toNat_tableLimit_valid h.cfgValid
    imageBase := fun _ => rfl }

theorem inv_setIe {s : State} {b : Bool} (h : s.Inv) (hb : b = false ∨ s.phase = .active) : (s.setIe b).Inv :=
  { h with
    enabledActive := fun enabled => hb.resolve_left fun disabled => absurd (disabled.symm.trans enabled) (by decide) }

theorem inv_setReg {s : State} {i : Nat} {e : RegEntry} (h : s.Inv) (hvalid : validIrq s.cfg i = true)
    (hfree : (s.regAt i).bound = false) (htag : e.tag < 2 ^ s.cfg.tagW) : (s.setReg i e).Inv :=
  { h with
    regLength := by rw [State.setReg_reg, List.length_set, State.setReg_cfg, h.regLength]
    tagFits := fun e' he' => (List.mem_or_eq_of_mem_set he').elim (h.tagFits e') fun heq => heq ▸ htag
    serviceBound := fun j hj => isBound_setReg e hvalid hfree (h.serviceBound j hj) }

theorem inv_pushService {s : State} {i : Nat} (h : s.Inv) (hi : i ∉ s.inService) (hbound : s.isBound i = true) :
    (s.pushService i).Inv :=
  { h with
    serviceBound := fun j hj => by
      rcases List.mem_append.1 hj with hj | hj
      · exact h.serviceBound j hj
      · exact List.mem_singleton.1 hj ▸ hbound
    serviceNodup := List.nodup_append.2 ⟨h.serviceNodup, List.nodup_singleton i, fun j hj k hk hjk =>
      hi (List.mem_singleton.1 hk ▸ hjk ▸ hj)⟩ }

theorem inv_popService {s : State} (h : s.Inv) : s.popService.Inv :=
  { h with
    serviceBound := fun j hj => h.serviceBound j (List.dropLast_subset _ hj)
    serviceNodup := h.serviceNodup.sublist (List.dropLast_sublist _) }

theorem inv_withFault {s : State} {code : BitVec 4} (h : s.Inv) (hcode : code.toNat ≤ 11) :
    State.Inv { s with fault := code } :=
  { h with faultNamed := hcode }

/-- Each effect of a command keeps the invariant. -/
theorem Effect.inv {i : Instr} {s t : State} (hinv : s.Inv) (h : Effect s i t) : t.Inv := by
  cases h with
  | @raises _ f => exact (inv_withFault hinv (toNat_faultCode_le f)).withHost _ _ _
  | answers => exact hinv.withHost _ _ _
  | install hv => exact (inv_setSlot hinv hv (encodeGate_and_rsvdMask _)).withHost _ _ _
  | init hie => exact inv_initialised hinv hie
  | load => exact (inv_installIdtr hinv).withHost _ _ _
  | setie hallowed => exact (inv_setIe hinv hallowed).withHost _ _ _
  | reg _ hvalid hfree => exact (inv_setReg hinv hvalid hfree (Nat.mod_lt _ (Nat.two_pow_pos _))).withHost _ _ _
  | disp hi hbound => exact (inv_pushService hinv hi hbound).withHost _ _ _
  | ret => exact (inv_popService hinv).withHost _ _ _

theorem step_inv {s t : State} (hinv : s.Inv) (h : step s = .next t) : t.Inv := by
  rcases step_effect h with ⟨-, rfl⟩ | ⟨r, rest, -, -, ⟨i, -, heffect⟩ | ⟨-, rfl⟩⟩
  · exact hinv.withHost _ _ _
  · exact heffect.inv (hinv.withHost _ _ _)
  · exact (inv_withFault hinv (by decide)).withHost _ _ _

/-- Settles O47: a step waits, raises code 1 or has an effect of its command, and each keeps the invariant
(`Effect.inv`). -/
theorem invariantIsKept : Obligations.InvariantIsKept := by
  unfold Obligations.InvariantIsKept
  exact fun _ _ => step_inv

/-! ### Reachable states (R31) -/

theorem inv_of_reaches {s t : State} (hinv : s.Inv) (h : Reaches s t) : t.Inv := by
  induction h with
  | refl => exact hinv
  | step _ hstep ih => exact step_inv ih hstep

theorem inv_of_reachable {s : State} (h : Reachable s) : s.Inv := by
  obtain ⟨c, reqs, hvalid, hreaches⟩ := h
  exact inv_of_reaches (inv_resetWith c reqs hvalid) hreaches

/-- Settles O48: each clause is one of the invariant, which every reachable state meets (`inv_of_reachable`). -/
theorem reachableStatesMeetTheInvariants : Obligations.ReachableStatesMeetTheInvariants := by
  unfold Obligations.ReachableStatesMeetTheInvariants
  intro s hs
  have hinv := inv_of_reachable hs
  exact ⟨hinv.enabledActive, hinv.validActive, fun hvalid => ⟨hinv.imageLimit hvalid, hinv.imageBase hvalid⟩,
    ⟨fun i hi => isBound_iff.1 (hinv.serviceBound i hi), hinv.serviceNodup⟩, hinv.reservedClear⟩

/-! ### The depth of the stack (R28) -/

/-- Settles O49: the stack repeats no identifier and holds only those of the range, of which there are N_IRQ. -/
theorem serviceStackDepth : Obligations.ServiceStackDepth := by
  unfold Obligations.ServiceStackDepth
  intro s hinv
  have inRange : s.inService ⊆ List.range' s.cfg.irqBase s.cfg.nIrq := fun i hi =>
    List.mem_range'_1.2 (validIrq_iff.1 (isBound_iff.1 (hinv.serviceBound i hi)).1)
  calc s.inService.length
    _ ≤ (List.range' s.cfg.irqBase s.cfg.nIrq).length := (hinv.serviceNodup.subperm inRange).length_le
    _ = s.cfg.nIrq := List.length_range'

end Sys2Proof.Machine
end

section
/-! Proofs: what every step keeps, and the accesses of each command (10_state.md R22, R24, R33; 30_encoding.md R62;
60_exceptions.md R132, R134, R144, R151). -/

namespace Sys2Proof.Machine

/-! ### Waiting and faulted blocks (R132, R134, R151) -/

/-- Settles O15: `step_nil`. -/
theorem blockWaitsForACommand : Obligations.BlockWaitsForACommand := by
  unfold Obligations.BlockWaitsForACommand
  exact fun _ hpending => step_nil hpending

/-- Every command starts with `State.perform`, so a faulted block performs none. -/
theorem exec_faulted {s : State} (hc : configValid s.cfg = true) (hf : s.fault ≠ 0) (i : Instr) :
    exec i s = .fault .blockFaulted := by
  cases i <;> exact perform_faulted hc hf _

/-- A faulted block performs no word, legal or not. -/
theorem step_faulted {s : State} (hc : configValid s.cfg = true) (hf : s.fault ≠ 0) (hp : s.pending ≠ []) :
    step s = .fault .blockFaulted := by
  obtain ⟨r, rest, hr⟩ := List.exists_cons_of_ne_nil hp
  cases hd : decode r.cw with
  | ok i =>
    rw [step_legal hr hd]
    exact exec_faulted (s := s.accept r rest) hc hf i
  | error e =>
    rw [step_illegal hr hd]
    exact perform_faulted (s := s.accept r rest) hc hf _

/-- A step of a faulted block waits. -/
theorem step_faulted_next {s t : State} (hf : s.fault ≠ 0) (h : step s = .next t) : t = s.idle := by
  rcases step_effect h with ⟨-, ht⟩ | ⟨r, rest, -, hready, -⟩
  · exact ht
  · exact absurd hready.2 hf

/-- An effect that leaves a fault in a ready block raised it, and wrote the code and nothing else. -/
theorem Effect.eq_of_fault {i : Instr} {s t : State} (hready : s.Ready) (h : Effect s i t) (hf : t.fault ≠ 0) :
    t = { s with fault := t.fault, resp := some (.fault t.fault) } := by
  cases h with
  | raises => rfl
  | _ => exact absurd hready.2 hf

/-- Settles O16: the fault came of a command that raised it (`Effect.eq_of_fault`) or of an illegal word; from then
on only waiting is left (`exec_faulted`, `step_faulted`, `step_faulted_next`). -/
theorem faultStopsTheBlock : Obligations.FaultStopsTheBlock := by
  unfold Obligations.FaultStopsTheBlock
  intro s t hready hstep hf
  have raised : ∃ r rest, s.pending = r :: rest ∧
      t = { s with pending := rest, ports := r.ports, fault := t.fault, resp := some (.fault t.fault) } := by
    rcases step_effect hstep with ⟨-, rfl⟩ | ⟨r, rest, hpending, haccepted, ⟨i, -, heffect⟩ | ⟨-, rfl⟩⟩
    · exact absurd hready.2 hf
    · exact ⟨r, rest, hpending, heffect.eq_of_fault haccepted hf⟩
    · exact ⟨r, rest, hpending, rfl⟩
  have hc : configValid t.cfg = true := by
    obtain ⟨r, rest, -, ht⟩ := raised
    rw [ht]
    exact hready.1
  refine ⟨raised, step_faulted hc hf, exec_faulted hc hf, fun u hu => ?_, ?_⟩
  · rw [step_faulted_next hf hu, State.idle_fault]
  · have notZero : (t.fault == 0) = false := beq_eq_false_iff_ne.2 hf
    rw [State.endsWell, notZero, Bool.and_false, Bool.false_and]

/-- Settles O18: a faulted block performs nothing (`step_faulted`); an illegal word raises code 1 before any command
is performed (`step_illegal_ready`); LOAD's and DLV's tests come in the order of their lemmas. -/
theorem firstFaultWins : Obligations.FirstFaultWins := by
  unfold Obligations.FirstFaultWins
  refine ⟨fun _ => step_faulted, ?illegal, ?load, ?dlv⟩
  case illegal =>
    intro s t r rest e hready hpending hdecode hstep
    rw [step_illegal_ready hready hpending hdecode] at hstep
    injection hstep with ht
    rw [← ht]
  case load =>
    intro s t hready hphase _ h
    rw [exec_load_uninitialized hready hphase] at h
    injection h with ht
    rw [← ht]
  case dlv =>
    intro s t v hready hgate h
    split
    · next hdelivered =>
      obtain ⟨hvalid, hlimit, hpresent⟩ := hdelivered
      rw [exec_dlv_unmodelled hready hvalid hlimit hpresent hgate] at h
      injection h with ht
      rw [← ht]
    · next hundelivered =>
      have cause : s.idtrValid = false ∨ s.idtr.limit.toNat < 8 * v + 7 ∨ (gateFields (s.slot v)).p = 0 := by
        rw [not_and_or, not_and_or, Bool.not_eq_true, Nat.not_le] at hundelivered
        exact hundelivered.imp_right (Or.imp_right fun notPresent =>
          (BitVec.eq_zero_or_eq_one _).resolve_right notPresent)
      rw [exec_dlv_undefined hready cause] at h
      injection h with ht
      rw [← ht]

/-! ### The configuration, the host's list and the phase (R6, R22, R24, R94) -/

/-- No command writes the configuration or takes a further word. -/
theorem Effect.cfg_pending {i : Instr} {s t : State} (h : Effect s i t) : t.cfg = s.cfg ∧ t.pending = s.pending := by
  cases h <;> exact ⟨rfl, rfl⟩

/-- Settles O45: a step takes the first word of the list if there is one, and no effect of a command touches the list
or the configuration (`Effect.cfg_pending`). -/
theorem configurationIsFixed : Obligations.ConfigurationIsFixed := by
  unfold Obligations.ConfigurationIsFixed
  intro s t hstep
  rcases step_effect hstep with ⟨hpending, rfl⟩ | ⟨r, rest, hpending, -, ⟨i, -, heffect⟩ | ⟨-, rfl⟩⟩
  · exact ⟨rfl, by rw [State.idle_pending, hpending, List.tail_nil]⟩
  · obtain ⟨hcfg, htaken⟩ := heffect.cfg_pending
    exact ⟨hcfg, by rw [htaken, hpending, State.accept_pending, List.tail_cons]⟩
  · exact ⟨rfl, by rw [hpending, List.tail_cons]; rfl⟩

theorem phaseRank_le_active (p : Phase) : phaseRank p ≤ phaseRank .active := by
  cases p <;> decide

theorem phaseRank_le_nextPhaseInit (p : Phase) : phaseRank p ≤ phaseRank (nextPhaseInit p) := by
  cases p <;> decide

/-- INIT and LOAD move the phase forward or not at all, and nothing else moves it (R94, R95). -/
theorem Effect.phaseRank_le {i : Instr} {s t : State} (h : Effect s i t) : phaseRank s.phase ≤ phaseRank t.phase := by
  cases h with
  | init => exact phaseRank_le_nextPhaseInit s.phase
  | load => exact phaseRank_le_active s.phase
  | _ => exact Nat.le_refl _

/-- Settles O44: `Effect.phaseRank_le`; waiting and an illegal word leave the phase alone. -/
theorem phaseNeverMovesBack : Obligations.PhaseNeverMovesBack := by
  unfold Obligations.PhaseNeverMovesBack
  intro s t hstep
  rcases step_effect hstep with ⟨-, rfl⟩ | ⟨r, rest, -, -, ⟨i, -, heffect⟩ | ⟨-, rfl⟩⟩
  · exact Nat.le_refl _
  · exact heffect.phaseRank_le
  · exact Nat.le_refl _

/-! ### What a command writes (R33) -/

/-- ENCODE and DECODE raise nothing (R133). -/
theorem not_raises_codec {s : State} {i : Instr} {f : FaultName} (hi : i = .encode ∨ i = .decode) :
    ¬ Raises s i f := by
  rcases hi with rfl | rfl <;> cases f <;> simp [Raises]

theorem Element.same_refl (s : State) (e : Element) : Element.same s s e := by
  cases e
  case idtr => exact ⟨rfl, rfl⟩
  all_goals rfl

/-- A fault and an answer keep every element; each other effect keeps those its command is not marked to write. -/
theorem Effect.same_of_not_writes {i : Instr} {s t : State} (h : Effect s i t) (e : Element)
    (he : writes i e = false) : Element.same s t e := by
  cases h with
  | raises | answers => exact Element.same_refl s e
  | init => cases e <;> simp_all [writes, Element.same, initialised]
  | _ => cases e <;> simp_all [writes, Element.same]

/-- The code changes only where a fault is raised, and then the command answers that code. -/
theorem Effect.fault_eq_or_answered {i : Instr} {s t : State} (h : Effect s i t) :
    t.fault = s.fault ∨ t.resp = some (.fault t.fault) := by
  cases h with
  | raises => exact .inr rfl
  | _ => exact .inl rfl

theorem Effect.fault_eq_of_codec {i : Instr} {s t : State} (h : Effect s i t) (hi : i = .encode ∨ i = .decode) :
    t.fault = s.fault := by
  cases h with
  | raises hraises => exact absurd hraises (not_raises_codec hi)
  | _ => rfl

theorem Effect.slot_eq_of_install {s t : State} {u v : Nat} (h : Effect s (.install v) t) (hu : u ≠ v) :
    t.slot u = s.slot u := by
  cases h with
  | install => exact slot_setSlot_other s _ hu
  | _ => rfl

/-- Settles O41: each clause, of any effect of the command. -/
theorem commandsWriteOnlyTheirElements : Obligations.CommandsWriteOnlyTheirElements := by
  unfold Obligations.CommandsWriteOnlyTheirElements
  intro s t i h
  obtain ⟨-, heffect⟩ := exec_effect h
  refine ⟨heffect.same_of_not_writes, heffect.fault_eq_or_answered, heffect.fault_eq_of_codec, ?_⟩
  rintro v rfl u hu
  exact heffect.slot_eq_of_install hu

/-! ### What a command reads (R33, R62) -/

/-- INIT's pass over the slots carries the operand ports along unread. -/
theorem setSlots_ports_irrel (s : State) (p : Ports) (f : Nat → DescWord) (n : Nat) :
    State.setSlots { s with ports := p } f n = { s.setSlots f n with ports := p } := by
  induction n with
  | zero => rfl
  | succ n ih => rw [State.setSlots, ih]; rfl

theorem initialised_ports_irrel (s : State) (p : Ports) :
    initialised { s with ports := p } = { initialised s with ports := p } := by
  simp only [initialised, setSlots_ports_irrel]

theorem isBound_congr {s t : State} (i : Nat) (hcfg : t.cfg = s.cfg) (hreg : t.reg = s.reg) :
    t.isBound i = s.isBound i := by
  rw [State.isBound, State.isBound, hcfg, regAt_congr i hcfg hreg]

/-- A command reads of the block the elements it is marked to read, so it finds the same causes of faults wherever
those agree. -/
theorem Raises.congr {s s' : State} {i : Instr} {f : FaultName} (hcfg : s.cfg = s'.cfg) (hreads : sameReads s s' i)
    (h : Raises s i f) : Raises s' i f := by
  cases f with
  | illegalCommand => exact h
  | slotOutOfRange =>
    obtain ⟨v, hi, hv⟩ := h
    exact ⟨v, hi, hcfg ▸ hv⟩
  | initWhileEnabled =>
    obtain ⟨rfl, hie⟩ := h
    exact ⟨rfl, hreads.2 ▸ hie⟩
  | loadBeforeInit =>
    obtain ⟨rfl, hphase⟩ := h
    exact ⟨rfl, hreads.1 ▸ hphase⟩
  | loadWhileEnabled =>
    obtain ⟨rfl, hphase, hie⟩ := h
    exact ⟨rfl, hreads.1 ▸ hphase, hreads.2 ▸ hie⟩
  | enableBeforeLoad =>
    obtain ⟨rfl, hphase⟩ := h
    exact ⟨rfl, hreads ▸ hphase⟩
  | registerBeforeInit =>
    obtain ⟨⟨n, rfl⟩, hphase⟩ := h
    exact ⟨⟨n, rfl⟩, hreads.1 ▸ hphase⟩
  | reentrantDispatch =>
    obtain ⟨n, rfl, hn⟩ := h
    exact ⟨n, rfl, hreads.2 ▸ hn⟩
  | retireMismatch =>
    obtain ⟨n, rfl, htop⟩ := h
    have hstack : s.topService = s'.topService := congrArg List.getLast? hreads
    exact ⟨n, rfl, hstack ▸ htop⟩
  | undefinedDelivery =>
    obtain ⟨v, rfl, hcause⟩ := h
    obtain ⟨hslot, hidtr, hvalid⟩ := hreads
    exact ⟨v, rfl, hslot ▸ hidtr ▸ hvalid ▸ hcause⟩
  | unmodelledGate =>
    obtain ⟨v, rfl, hcause⟩ := h
    obtain ⟨hslot, hidtr, hvalid⟩ := hreads
    exact ⟨v, rfl, hslot ▸ hidtr ▸ hvalid ▸ hcause⟩

/-- Wherever those elements and the listed ports agree, it gives the same answers. -/
theorem Answers.congr {s s' : State} {i : Instr} {r : Response} (hcfg : s.cfg = s'.cfg) (hreads : sameReads s s' i)
    (hports : samePorts s s' i) (h : Answers s i r) : Answers s' i r := by
  cases i with
  | encode =>
    have hf : s.portF = s'.portF := hports
    rwa [Answers, ← hf]
  | decode =>
    have hw : s.portW = s'.portW := hports
    rwa [Answers, ← hw]
  | rdslot v =>
    have hslot : s.slot v = s'.slot v := hreads
    rwa [Answers, ← hcfg, ← hslot]
  | reg n =>
    obtain ⟨hphase, hreg⟩ := hreads
    rwa [Answers, ← hphase, ← hcfg, regAt_congr n hcfg.symm hreg.symm]
  | disp n =>
    obtain ⟨hreg, hservice⟩ := hreads
    rwa [Answers, ← hservice, isBound_congr n hcfg.symm hreg.symm]
  | dlv v =>
    obtain ⟨hslot, hidtr, hvalid⟩ := hreads
    rwa [Answers, ← hslot, ← hidtr, ← hvalid]
  | _ => exact h.elim

theorem sameReads_refl (s : State) (i : Instr) : sameReads s s i := by
  cases i <;> simp [sameReads]

/-- An effect carries unlisted ports along: only ENCODE, DECODE, INSTALL, REG and DISP read a port, each its own
(R62). -/
theorem Effect.of_samePorts {s t : State} {p : Ports} {i : Instr} (hports : samePorts s { s with ports := p } i)
    (h : Effect s i t) : Effect { s with ports := p } i { t with ports := p } := by
  cases h with
  | raises hraises => exact .raises (hraises.congr rfl (sameReads_refl s i))
  | answers hanswers => exact .answers (hanswers.congr (s := s) rfl (sameReads_refl s i) hports)
  | install hv =>
    have hf : s.portF = p.f := hports
    rw [hf]
    exact .install hv
  | init hie =>
    rw [← initialised_ports_irrel]
    exact .init hie
  | load hphase hie => exact .load hphase hie
  | setie hallowed => exact .setie hallowed
  | reg hphase hvalid hfree =>
    obtain ⟨hh, ht⟩ := hports
    have hportH : s.portH = p.h := hh
    have hportT : s.portT = p.t % 2 ^ s.cfg.tagW := congrArg (· % 2 ^ s.cfg.tagW) ht
    rw [hportH, hportT]
    exact .reg hphase hvalid hfree
  | disp hi hbound =>
    have hc : s.portC = p.c := hports
    rw [hc]
    exact .disp hi hbound
  | ret htop => exact .ret htop

/-- Settles O40: the effect is one of the other ports' too (`Effect.of_samePorts`). -/
theorem unlistedPortsAreIgnored : Obligations.UnlistedPortsAreIgnored := by
  unfold Obligations.UnlistedPortsAreIgnored
  intro s t p i hports h
  obtain ⟨hready, heffect⟩ := exec_effect h
  exact exec_of_effect (s := { s with ports := p }) hready (heffect.of_samePorts hports)

/-! ### Two runs that agree on what a command reads (R33) -/

/-- The next state of a command is the one its effect says. -/
theorem eq_of_effect {s t u : State} {i : Instr} (h : exec i s = .next t) (heffect : Effect s i u) : t = u := by
  obtain ⟨hready, -⟩ := exec_effect h
  rw [exec_of_effect hready heffect] at h
  injection h with hu
  exact hu.symm

/-- A command that raises a fault in both of two runs leaves the same in what it is marked to write. -/
theorem sameWrites_of_raises {s s' : State} {i : Instr} {f : FaultName} (hreads : sameReads s s' i)
    (h : Raises s i f) (resp : Option Response) :
    sameWrites { s with fault := faultCode f, resp := resp } { s' with fault := faultCode f, resp := resp } i := by
  cases i with
  | install v =>
    intro hv
    cases f <;> simp [Raises] at h
    exact absurd hv (Nat.not_lt.2 h)
  | init | load | setie => exact fun hf => absurd hf (faultCode_ne_zero f)
  | reg => exact hreads.2
  | disp => exact hreads.2
  | ret => exact hreads
  | _ => trivial

theorem sameWrites_of_answers {s s' : State} {i : Instr} {r : Response} (hreads : sameReads s s' i)
    (h : Answers s i r) (resp : Option Response) :
    sameWrites { s with resp := resp } { s' with resp := resp } i := by
  cases i with
  | encode | decode | rdslot | dlv => trivial
  | reg => exact hreads.2
  | disp => exact hreads.2
  | _ => exact h.elim

/-- The effect of a command in one run tells what it answers, raises and writes in another that agrees on what it is
marked to read. -/
theorem Effect.agrees {s s' t t' : State} {i : Instr} (hcfg : s.cfg = s'.cfg) (hwf : s.mem.wf) (hwf' : s'.mem.wf)
    (hfault : s.fault = s'.fault) (hreads : sameReads s s' i) (hports : samePorts s s' i) (h : Effect s i t)
    (h' : exec i s' = .next t') : t.resp = t'.resp ∧ t.fault = t'.fault ∧ sameWrites t t' i := by
  cases h with
  | raises hraises =>
    obtain rfl := eq_of_effect h' (.raises (hraises.congr hcfg hreads))
    exact ⟨rfl, rfl, sameWrites_of_raises hreads hraises _⟩
  | answers hanswers =>
    obtain rfl := eq_of_effect h' (.answers (hanswers.congr hcfg hreads hports))
    exact ⟨rfl, hfault, sameWrites_of_answers hreads hanswers _⟩
  | @install v hv =>
    have hf : s.portF = s'.portF := hports
    obtain rfl := eq_of_effect h' (.install (hcfg ▸ hv))
    refine ⟨rfl, hfault, fun _ => ?_⟩
    calc (s.setSlot v (encodeGate s.portF)).slot v
      _ = encodeGate s.portF := slot_setSlot_same s v _ hwf
      _ = encodeGate s'.portF := by rw [hf]
      _ = (s'.setSlot v (encodeGate s'.portF)).slot v := (slot_setSlot_same s' v _ hwf').symm
  | init hie =>
    obtain ⟨hphase, hie'⟩ := hreads
    obtain rfl := eq_of_effect h' (.init (hie' ▸ hie))
    refine ⟨rfl, hfault, fun _ => ⟨fun v hv => ?_, congrArg nextPhaseInit hphase⟩⟩
    rw [slot_initialised hwf hv, slot_initialised hwf' (hcfg ▸ hv), hcfg]
  | load hphase hie =>
    obtain ⟨hphase', hie'⟩ := hreads
    obtain rfl := eq_of_effect h' (.load (hphase' ▸ hphase) (hie' ▸ hie))
    have himage : loadImage s.cfg = loadImage s'.cfg := congrArg loadImage hcfg
    exact ⟨congrArg (fun r => some (Response.idtr r.image)) himage, hfault, fun _ => ⟨rfl, himage, rfl⟩⟩
  | setie hallowed =>
    obtain rfl := eq_of_effect h' (.setie (hallowed.imp_right hreads.symm.trans))
    exact ⟨rfl, hfault, fun _ => rfl⟩
  | @reg n hphase hvalid hfree =>
    obtain ⟨hphase', hreg⟩ := hreads
    obtain ⟨hh, ht⟩ := hports
    have hentry := regAt_congr n hcfg hreg
    obtain rfl := eq_of_effect h' (.reg (hphase' ▸ hphase) (hcfg ▸ hvalid) (hentry ▸ hfree))
    refine ⟨rfl, hfault, ?_⟩
    simp [sameWrites, State.portH, State.portT, hcfg, hreg, hh, ht]
  | @disp n hn hbound =>
    obtain ⟨hreg, hservice⟩ := hreads
    have hentry := regAt_congr n hcfg hreg
    have hc : s.portC = s'.portC := hports
    obtain rfl := eq_of_effect h' (.disp (hservice ▸ hn) ((isBound_congr n hcfg hreg).symm.trans hbound))
    exact ⟨by rw [hentry, hc], hfault, congrArg (· ++ [n]) hservice⟩
  | ret htop =>
    obtain rfl := eq_of_effect h' (.ret ((congrArg List.getLast? hreads).symm.trans htop))
    exact ⟨rfl, hfault, congrArg List.dropLast hreads⟩

/-- Settles O42: `Effect.agrees`, both runs being of ready blocks, so both found no fault. -/
theorem commandsReadOnlyTheirElements : Obligations.CommandsReadOnlyTheirElements := by
  unfold Obligations.CommandsReadOnlyTheirElements
  intro s s' t t' i hcfg hwf hwf' hreads hports h h'
  obtain ⟨hready, heffect⟩ := exec_effect h
  obtain ⟨hready', -⟩ := exec_effect h'
  exact heffect.agrees hcfg hwf hwf' (hready.2.trans hready'.2.symm) hreads hports h'

/-! ### The execution context (R144) -/

theorem context_normal_iff (s : State) : s.context = .normal ↔ s.inService = [] := by
  rw [State.context]
  split <;> simp [*]

theorem context_interrupt_iff (s : State) : s.context = .interrupt ↔ s.inService ≠ [] := by
  rw [State.context]
  split <;> simp [*]

/-- What a command does to the stack: a DISP that calls pushes its identifier, a RET pops the innermost, and nothing
else moves it. -/
theorem Effect.inService_cases {i : Instr} {s t : State} (heffect : Effect s i t) :
    t.inService = s.inService ∨
    (∃ n h g c, i = .disp n ∧ t.resp = some (.call h g c) ∧ t.inService = s.inService ++ [n]) ∨
    ∃ n, i = .ret n ∧ s.topService = some n ∧ t.inService = s.inService.dropLast := by
  cases heffect with
  | disp => exact .inr (.inl ⟨_, _, _, _, rfl, rfl, rfl⟩)
  | ret htop => exact .inr (.inr ⟨_, rfl, htop, rfl⟩)
  | _ => exact .inl rfl

/-- No command that leaves the block as it is answers Call. -/
theorem not_answers_call {s : State} {i : Instr} {h : Addr} {g : Tag} {c : Ctx} : ¬ Answers s i (.call h g c) := by
  cases i <;> simp [Answers, gateEntry]

/-- Call is the answer of a DISP of a bound identifier, with its handler and tag, and that DISP pushes the
identifier. -/
theorem Effect.of_call {i : Instr} {s t : State} {h : Addr} {g : Tag} {c : Ctx} (heffect : Effect s i t)
    (hcall : t.resp = some (.call h g c)) :
    ∃ n, i = .disp n ∧ h = (s.regAt n).handler ∧ g = (s.regAt n).tag ∧ t.inService = s.inService ++ [n] := by
  cases heffect with
  | @answers _ r hanswers =>
    obtain rfl := Option.some.inj hcall
    exact absurd hanswers not_answers_call
  | @disp n =>
    injection hcall with hcall
    injection hcall with hh hg
    exact ⟨n, rfl, hh.symm, hg.symm, rfl⟩
  | _ => cases hcall

theorem inService_of_pop_empty {s : State} {n : Nat} (htop : s.topService = some n)
    (hempty : s.inService.dropLast = []) : s.inService = [n] := by
  have rebuilt := List.dropLast_append_getLast? n htop
  rw [hempty, List.nil_append] at rebuilt
  exact rebuilt.symm

/-- Settles O50: from an empty stack only the push of a DISP that calls leaves it nonempty, and a nonempty one is
left empty only by the pop of its one identifier (`Effect.inService_cases`). -/
theorem contextEnteredByCallLeftByRet : Obligations.ContextEnteredByCallLeftByRet := by
  unfold Obligations.ContextEnteredByCallLeftByRet
  intro s t i h
  obtain ⟨-, heffect⟩ := exec_effect h
  simp only [context_normal_iff, context_interrupt_iff]
  refine ⟨fun hempty => ⟨fun hentered => ?entered, ?called⟩, fun hserving => ⟨fun hleft => ?left, ?popped⟩⟩
  case entered =>
    rcases heffect.inService_cases with kept | ⟨n, a, g, c, hi, hcall, -⟩ | ⟨n, -, htop, -⟩
    · exact absurd (kept.trans hempty) hentered
    · exact ⟨n, a, g, c, hi, hcall⟩
    · rw [topService_of_nil hempty] at htop
      cases htop
  case called =>
    rintro ⟨n, a, g, c, -, hcall⟩
    obtain ⟨m, -, -, -, pushed⟩ := heffect.of_call hcall
    rw [pushed]
    exact List.concat_ne_nil m _
  case left =>
    rcases heffect.inService_cases with kept | ⟨n, -, -, -, -, -, pushed⟩ | ⟨n, hi, htop, popped⟩
    · exact absurd (kept.symm.trans hleft) hserving
    · exact absurd (pushed.symm.trans hleft) (List.concat_ne_nil n _)
    · exact ⟨n, hi, inService_of_pop_empty htop (popped.symm.trans hleft)⟩
  case popped =>
    rintro ⟨n, rfl, hstack⟩
    have popped := eq_of_effect h (.ret (topService_of_append (outer := []) hstack))
    rw [popped, State.popService_inService, hstack, List.dropLast_singleton]

end Sys2Proof.Machine
end

section
/-! Proofs: the gate word and its fields (30_encoding.md R68 to R71; 40_codec.md R84, R87). -/

namespace Sys2Proof.Machine

/-! ### Byte 5 (R71, R92) -/

/-- Byte 5 of an encoded gate: p, dpl, 0, size, type from bit 7 down (R71). -/
theorem wordByte_five_encodeGate (f : GateFields) : wordByte (encodeGate f) 5 =
    (f.p.setWidth 8 <<< 7 ||| f.dpl.setWidth 8 <<< 5 ||| f.size.setWidth 8 <<< 3 ||| f.type.setWidth 8) := by
  refine extractLsb'_eq_of_bits fun k hk => ?_
  rw [getLsbD_encodeGate]
  interval_cases k <;> simp

/-- Settles O3: the listed values are `wordByte_five_encodeGate` at their fields, and a kernel gate's is that at the
fields of R92. -/
theorem byteFiveOfAGate : Obligations.ByteFiveOfAGate := by
  unfold Obligations.ByteFiveOfAGate
  refine ⟨wordByte_five_encodeGate, fun off sel => ?_⟩
  have listed {off : Addr} {sel : BitVec 16} {type : BitVec 3} {size : BitVec 1} {dpl : BitVec 2} {p : BitVec 1}
      {b : Byte} (h : p.setWidth 8 <<< 7 ||| dpl.setWidth 8 <<< 5 ||| size.setWidth 8 <<< 3 ||| type.setWidth 8 = b) :
      wordByte (encodeGate ⟨off, sel, type, size, dpl, p⟩) 5 = b :=
    (wordByte_five_encodeGate _).trans h
  refine ⟨listed (by decide), listed (by decide), listed (by decide), listed (by decide), by decide,
    fun c v stub hstub => ?_⟩
  have kernelByte : ∀ dpl : BitVec 2, (1#1).setWidth 8 <<< 7 ||| dpl.setWidth 8 <<< 5 ||| (1#1).setWidth 8 <<< 3 |||
      (6#3).setWidth 8 = 0x8E#8 ||| dpl.setWidth 8 <<< 5 := by decide
  rw [initWord_of_serviced hstub]
  exact listed (kernelByte c.kernelDpl)

/-! ### The codec's laws (R84) -/

theorem gateFields_encodeGate (f : GateFields) : gateFields (encodeGate f) = f := by
  obtain ⟨-, hsel, -, -, htype, hsize, -, hdpl, hp, -, hoff⟩ := encodedGatePlacesEveryField f
  exact gateFields_ext hoff hsel htype hsize hdpl hp

theorem rsvdNonzero_encodeGate (f : GateFields) : rsvdNonzero (encodeGate f) = false := by
  rw [rsvdNonzero, encodeGate_and_rsvdMask]
  rfl

/-- Encoding the fields of a word gives the word back, its reserved bits cleared. -/
theorem encodeGate_gateFields (w : DescWord) : encodeGate (gateFields w) = w &&& ~~~rsvdMask := by
  refine BitVec.eq_of_getLsbD_eq fun k hk => ?_
  rw [BitVec.getLsbD_and, BitVec.getLsbD_not, getLsbD_rsvdMask k hk, getLsbD_encodeGate, getLsbD_gateFields_off,
    getLsbD_gateFields_off]
  simp only [gateFields, BitVec.getLsbD_extractLsb']
  split_ifs
  all_goals
    simp (disch := omega) only [decide_eq_true, decide_eq_false, Nat.add_sub_of_le, Nat.sub_add_cancel, Bool.true_and,
      Bool.and_true, Bool.or_false, Bool.false_or, Bool.not_false, Bool.not_true, Bool.and_false, Bool.true_or]
  omega

/-- A word all of whose bits lie in a mask is not changed by the mask. -/
theorem and_eq_self_of_and_not_eq_zero {x m : DescWord} (h : x &&& ~~~m = 0) : x &&& m = x :=
  calc x &&& m
    _ = x &&& m ||| x &&& ~~~m := by rw [h]; exact BitVec.or_zero.symm
    _ = x &&& (m ||| ~~~m) := BitVec.and_or_distrib_left.symm
    _ = x := by rw [BitVec.or_not_self, BitVec.and_allOnes]

/-- A word with no reserved bit is the encoding of its fields. -/
theorem encodeGate_gateFields_of_clear {w : DescWord} (h : w &&& rsvdMask = 0) : encodeGate (gateFields w) = w := by
  rw [encodeGate_gateFields]
  exact and_eq_self_of_and_not_eq_zero (by rwa [BitVec.not_not])

/-- Words that differ in reserved bits only have the same fields. -/
theorem gateFields_congr {w w' : DescWord} (h : w &&& ~~~rsvdMask = w' &&& ~~~rsvdMask) :
    gateFields w = gateFields w' := by
  rw [← gateFields_and_not_rsvdMask w, h, gateFields_and_not_rsvdMask]

/-- Settles O4: decoding is a left inverse of encoding (`gateFields_encodeGate`, `rsvdNonzero_encodeGate`), encoding
one of decoding on the words with no reserved bit (`encodeGate_gateFields`); reserved bits decide the flag and no
field. -/
theorem gateCodecLaws : Obligations.GateCodecLaws := by
  unfold Obligations.GateCodecLaws
  refine ⟨?roundTrip, encodeGate_and_rsvdMask, encodeGate_gateFields, ⟨?injective, ?onto⟩, ?lossy, ?lost⟩
  case roundTrip => exact fun f => Prod.ext (gateFields_encodeGate f) (rsvdNonzero_encodeGate f)
  case injective => exact Function.LeftInverse.injective gateFields_encodeGate
  case onto => exact fun w hclear => ⟨gateFields w, encodeGate_gateFields_of_clear hclear⟩
  case lossy =>
    intro injective
    have same : decodeGate 0x0000000100000000 = decodeGate rsvdMask := by decide
    exact absurd (injective same) (by decide)
  case lost =>
    intro w w' hsame
    refine ⟨gateFields_congr hsame, ?_⟩
    show rsvdNonzero w ≠ rsvdNonzero w' ↔ _
    rw [ne_eq, Bool.eq_iff_iff, rsvdNonzero_iff, rsvdNonzero_iff]
    exact not_congr not_iff_not

/-! ### Each field owns its bits (R87) -/

/-- Two words that agree outside a mask differ in its bits only. -/
theorem xor_and_not_eq_zero {x y m : DescWord} (h : ∀ k < 64, m.getLsbD k = false → x.getLsbD k = y.getLsbD k) :
    (x ^^^ y) &&& ~~~m = 0 := by
  refine BitVec.eq_of_getLsbD_eq fun k hk => ?_
  rw [BitVec.getLsbD_and, BitVec.getLsbD_xor, BitVec.getLsbD_not]
  cases hm : m.getLsbD k with
  | true => simp
  | false => simp [h k hk hm]

/-- A part of a word that lies outside a mask is not changed by a change within the mask. -/
theorem extractLsb'_xor_of_outside {w m mask : DescWord} {start len : Nat} (hm : m &&& ~~~mask = 0)
    (h : mask.extractLsb' start len = 0) : (w ^^^ m).extractLsb' start len = w.extractLsb' start len := by
  rw [← and_eq_self_of_and_not_eq_zero hm, BitVec.extractLsb'_xor, BitVec.extractLsb'_and, h]
  exact (congrArg _ BitVec.and_zero).trans BitVec.xor_zero

/-- A change within a mask leaves every field whose place lies outside the mask. -/
theorem gateFields_xor_of_outside (w : DescWord) {m mask : DescWord} (hm : m &&& ~~~mask = 0) :
    (mask.extractLsb' 48 16 = 0 → mask.extractLsb' 0 16 = 0 → (gateFields (w ^^^ m)).off = (gateFields w).off) ∧
    (mask.extractLsb' 16 16 = 0 → (gateFields (w ^^^ m)).sel = (gateFields w).sel) ∧
    (mask.extractLsb' 40 3 = 0 → (gateFields (w ^^^ m)).type = (gateFields w).type) ∧
    (mask.extractLsb' 43 1 = 0 → (gateFields (w ^^^ m)).size = (gateFields w).size) ∧
    (mask.extractLsb' 45 2 = 0 → (gateFields (w ^^^ m)).dpl = (gateFields w).dpl) ∧
    (mask.extractLsb' 47 1 = 0 → (gateFields (w ^^^ m)).p = (gateFields w).p) := by
  have keeps {start len : Nat} (h : mask.extractLsb' start len = 0) := extractLsb'_xor_of_outside (w := w) hm h
  exact ⟨fun hhi hlo => congrArg₂ (· ++ ·) (keeps hhi) (keeps hlo), keeps, keeps, keeps, keeps, keeps⟩

/-- The mask holds every bit from `lo` up to, and without, `hi`. -/
abbrev Covers (mask : DescWord) (lo hi : Nat) : Prop := ∀ k < 64, lo ≤ k → k < hi → mask.getLsbD k = true

/-- Two records that differ only in fields whose place a mask covers are encoded alike outside the mask. -/
theorem encodeGate_xor_and_not_eq_zero {f g : GateFields} {mask : DescWord}
    (hoff : f.off = g.off ∨ Covers mask 0 16 ∧ Covers mask 48 64) (hsel : f.sel = g.sel ∨ Covers mask 16 32)
    (htype : f.type = g.type ∨ Covers mask 40 43) (hsize : f.size = g.size ∨ Covers mask 43 44)
    (hdpl : f.dpl = g.dpl ∨ Covers mask 45 47) (hp : f.p = g.p ∨ Covers mask 47 48) :
    (encodeGate f ^^^ encodeGate g) &&& ~~~mask = 0 := by
  refine xor_and_not_eq_zero fun k hk hm => ?_
  have bit {n : Nat} {x y : BitVec n} {j lo hi : Nat} (h : x = y ∨ Covers mask lo hi) (hlo : lo ≤ k) (hhi : k < hi) :
      x.getLsbD j = y.getLsbD j := by
    rcases h with rfl | covered
    · rfl
    · exact absurd (covered k hk hlo hhi) (by simp [hm])
  rw [getLsbD_encodeGate, getLsbD_encodeGate]
  split_ifs
  · exact bit (hoff.imp_right And.left) (by omega) (by omega)
  · exact bit hsel (by omega) (by omega)
  · rfl
  · exact bit htype (by omega) (by omega)
  · exact bit hsize (by omega) (by omega)
  · rfl
  · exact bit hdpl (by omega) (by omega)
  · exact bit hp (by omega) (by omega)
  · exact bit (hoff.imp_right And.right) (by omega) (by omega)

/-- Settles O5: the place of each field is its own (`encodeGate_xor_and_not_eq_zero`), and a field is read from its
place alone (`gateFields_xor_of_outside`). -/
theorem gateFieldsAreIndependent : Obligations.GateFieldsAreIndependent := by
  unfold Obligations.GateFieldsAreIndependent
  refine ⟨?off, ?sel, ?type, ?size, ?dpl, ?p, fun w m => ?decoded⟩
  case off =>
    exact fun _ _ => encodeGate_xor_and_not_eq_zero (.inr (by decide)) (.inl rfl) (.inl rfl) (.inl rfl) (.inl rfl)
      (.inl rfl)
  case sel =>
    exact fun _ _ => encodeGate_xor_and_not_eq_zero (.inl rfl) (.inr (by decide)) (.inl rfl) (.inl rfl) (.inl rfl)
      (.inl rfl)
  case type =>
    exact fun _ _ => encodeGate_xor_and_not_eq_zero (.inl rfl) (.inl rfl) (.inr (by decide)) (.inl rfl) (.inl rfl)
      (.inl rfl)
  case size =>
    exact fun _ _ => encodeGate_xor_and_not_eq_zero (.inl rfl) (.inl rfl) (.inl rfl) (.inr (by decide)) (.inl rfl)
      (.inl rfl)
  case dpl =>
    exact fun _ _ => encodeGate_xor_and_not_eq_zero (.inl rfl) (.inl rfl) (.inl rfl) (.inl rfl) (.inr (by decide))
      (.inl rfl)
  case p =>
    exact fun _ _ => encodeGate_xor_and_not_eq_zero (.inl rfl) (.inl rfl) (.inl rfl) (.inl rfl) (.inl rfl)
      (.inr (by decide))
  case decoded =>
    refine ⟨fun hm => ?off, fun hm => ?sel, fun hm => ?type, fun hm => ?size, fun hm => ?dpl, fun hm => ?p,
      fun hm => ?reserved⟩
    all_goals obtain ⟨off, sel, type, size, dpl, p⟩ := gateFields_xor_of_outside w hm
    case off =>
      refine ⟨(gateFields (w ^^^ m)).off, gateFields_ext rfl (sel ?_) (type ?_) (size ?_) (dpl ?_) (p ?_)⟩ <;> decide
    case sel =>
      refine ⟨(gateFields (w ^^^ m)).sel, gateFields_ext (off ?_ ?_) rfl (type ?_) (size ?_) (dpl ?_) (p ?_)⟩ <;> decide
    case type =>
      refine ⟨(gateFields (w ^^^ m)).type, gateFields_ext (off ?_ ?_) (sel ?_) rfl (size ?_) (dpl ?_) (p ?_)⟩ <;> decide
    case size =>
      refine ⟨(gateFields (w ^^^ m)).size, gateFields_ext (off ?_ ?_) (sel ?_) (type ?_) rfl (dpl ?_) (p ?_)⟩ <;> decide
    case dpl =>
      refine ⟨(gateFields (w ^^^ m)).dpl, gateFields_ext (off ?_ ?_) (sel ?_) (type ?_) (size ?_) rfl (p ?_)⟩ <;> decide
    case p =>
      refine ⟨(gateFields (w ^^^ m)).p, gateFields_ext (off ?_ ?_) (sel ?_) (type ?_) (size ?_) (dpl ?_) rfl⟩ <;> decide
    case reserved => refine gateFields_ext (off ?_ ?_) (sel ?_) (type ?_) (size ?_) (dpl ?_) (p ?_) <;> decide

end Sys2Proof.Machine
end

section
/-! Proofs: the table manager and delivery along several commands (41_table_manager.md R96 to R98; 43_cpu_interface.md
R120, R122; 20_memory.md R47, R54; 30_encoding.md R74). -/

namespace Sys2Proof.Machine

/-! ### Serviced vectors (R98) -/

/-- A vector has a stub exactly when it is serviced (R7). -/
theorem stubOf_isSome_iff {c : Config} {v : Nat} : (stubOf c v).isSome = true ↔ ∃ stub, (v, stub) ∈ c.serviced := by
  rw [stubOf, List.lookup_isSome_iff]
  constructor
  · rintro ⟨⟨u, stub⟩, hmem, hu⟩
    exact ⟨stub, (beq_iff_eq.1 hu : v = u) ▸ hmem⟩
  · rintro ⟨stub, hmem⟩
    exact ⟨(v, stub), hmem, beq_self_eq_true v⟩

/-- INIT's word for a vector is present exactly when the vector has a stub. -/
theorem initWord_present_iff {c : Config} {v : Nat} :
    (gateFields (initWord c v)).p = 1 ↔ (stubOf c v).isSome = true := by
  cases h : stubOf c v with
  | some stub =>
    rw [initWord_of_serviced h, gateFields_encodeGate]
    exact iff_of_true rfl rfl
  | none =>
    rw [initWord_of_unserviced h]
    exact iff_of_false (by decide) (by decide)

/-- Settles O24: INIT writes each slot its word (`slot_initialised`), present where the vector has a stub
(`initWord_present_iff`), which the serviced ones have. -/
theorem presentExactlyWhenServiced : Obligations.PresentExactlyWhenServiced := by
  unfold Obligations.PresentExactlyWhenServiced
  intro s t hwf hie h v hv
  rw [eq_of_effect h (.init hie), slot_initialised hwf hv]
  exact initWord_present_iff.trans stubOf_isSome_iff

/-! ### The limit (R96, R120) -/

/-- Settles O26: the size of the table (`nSlots_of_configValid`) bounds the limit (`toNat_tableLimit_valid`), which is
the limit of every loaded table register. -/
theorem limitCoversTheTable : Obligations.LimitCoversTheTable := by
  unfold Obligations.LimitCoversTheTable
  constructor
  · intro c hvalid
    obtain ⟨hlo, hhi⟩ := nSlots_of_configValid hvalid
    rw [toNat_tableLimit_valid hvalid]
    omega
  · intro s v hinv hloaded
    obtain ⟨hlo, -⟩ := nSlots_of_configValid hinv.cfgValid
    rw [hinv.imageLimit hloaded]
    omega

/-! ### The boot sequence (R97) -/

/-- Settles O28: each cell is what INIT, LOAD or SETIE does in its row's phase and enable; the enable of a reachable
state is clear in every other row (`State.Inv.enabledActive`). -/
theorem bootStateMachine : Obligations.BootStateMachine := by
  unfold Obligations.BootStateMachine
  intro s hready
  have disable : exec (.setie false) s = .next { s with ie := false, resp := some .done } :=
    exec_setie_allowed hready (.inl rfl)
  refine ⟨fun hphase hie => ?uninitialized, fun hphase hie => ?built, fun hphase hie => ?active,
    fun hphase hie => ?enabled, fun hreach hphase => ?unreachable⟩
  case uninitialized =>
    exact ⟨⟨_, exec_init_disabled hready hie, hready.2, congrArg nextPhaseInit hphase, hie⟩,
      ⟨_, exec_load_uninitialized hready hphase, rfl⟩,
      ⟨_, exec_setie_beforeActive hready (by simp [hphase]), rfl⟩,
      ⟨_, disable, hready.2, hphase, rfl⟩⟩
  case built =>
    exact ⟨⟨_, exec_init_disabled hready hie, hready.2, congrArg nextPhaseInit hphase, hie⟩,
      ⟨_, exec_load_built hready (by simp [hphase]) hie, hready.2, rfl, hie⟩,
      ⟨_, exec_setie_beforeActive hready (by simp [hphase]), rfl⟩,
      ⟨_, disable, hready.2, hphase, rfl⟩⟩
  case active =>
    exact ⟨⟨_, exec_init_disabled hready hie, hready.2, congrArg nextPhaseInit hphase, hie⟩,
      ⟨_, exec_load_built hready (by simp [hphase]) hie, hready.2, rfl, hie⟩,
      ⟨_, exec_setie_allowed hready (.inr hphase), hready.2, hphase, rfl⟩,
      ⟨_, disable, hready.2, hphase, rfl⟩⟩
  case enabled =>
    exact ⟨⟨_, exec_init_enabled hready hie, rfl⟩,
      ⟨_, exec_load_enabled hready (by simp [hphase]) hie, rfl⟩,
      ⟨_, exec_setie_allowed hready (.inr hphase), hready.2, hphase, rfl⟩,
      ⟨_, disable, hready.2, hphase, rfl⟩⟩
  case unreachable =>
    exact Bool.eq_false_iff.2 fun enabled => hphase ((inv_of_reachable hreach).enabledActive enabled)

/-! ### Delivery after INIT and LOAD, and after INSTALL (R54, R122) -/

/-- A slot that holds an encoded gate of a modelled kind, present and within the limit, is delivered through (R120). -/
theorem exec_dlv_encoded {s : State} {v : Nat} {f : GateFields} (hready : s.Ready) (hvalid : s.idtrValid = true)
    (hlimit : 8 * v + 7 ≤ s.idtr.limit.toNat) (hslot : s.slot v = encodeGate f) (hpresent : f.p = 1)
    (htype : f.type = 6 ∨ f.type = 7) (hsize : f.size = 1) :
    exec (.dlv v) s = .next { s with resp := some (gateEntry f) } := by
  have fields : gateFields (s.slot v) = f := by rw [hslot, gateFields_encodeGate]
  have modelled : gateModelled (s.slot v) = true := by
    rw [gateModelled_iff, fields, hslot]
    exact ⟨rsvdNonzero_encodeGate f, htype, hsize⟩
  rw [exec_dlv_entry hready hvalid hlimit (fields ▸ hpresent) modelled, fields]

theorem nextPhaseInit_ne_uninitialized (p : Phase) : nextPhaseInit p ≠ .uninitialized := by
  cases p <;> decide

/-- Settles O36: after INIT the slot holds the kernel gate of its stub (`slot_initialised`), LOAD's limit covers it,
and delivery goes through it (`exec_dlv_encoded`). -/
theorem servicedVectorEntersItsStub : Obligations.ServicedVectorEntersItsStub := by
  unfold Obligations.ServicedVectorEntersItsStub
  intro s v stub hready hwf hie hv hstub
  have limit : 8 * v + 7 ≤ (tableLimit s.cfg).toNat := by
    rw [toNat_tableLimit_valid hready.1]
    omega
  have gate : (initialised s).slot v = encodeGate (kernelGate s.cfg stub) := by
    rw [slot_initialised hwf hv, initWord_of_serviced hstub]
  have initialisedReady : (initialised s).Ready := hready
  refine ⟨_, _, exec_init_disabled hready hie,
    exec_load_built initialisedReady (nextPhaseInit_ne_uninitialized s.phase) hie, ?delivery⟩
  refine exec_dlv_encoded (f := kernelGate s.cfg stub) ?ready rfl limit gate rfl (.inl rfl) rfl
  exact hready

/-- Settles O37: INSTALL's write of the slot is what delivery reads (`slot_setSlot_same`, `exec_dlv_encoded`). -/
theorem deliverySeesTheInstalledGate : Obligations.DeliverySeesTheInstalledGate := by
  unfold Obligations.DeliverySeesTheInstalledGate
  intro s v hready hwf hv hvalid hlimit hpresent htype hsize
  exact ⟨_, exec_install_inside hready hv, exec_dlv_encoded hready hvalid hlimit (slot_setSlot_same s v _ hwf) hpresent
    htype hsize⟩

/-! ### The pseudo-instructions (R74) -/

/-- The step that takes a word just placed at the head of the host's list. -/
theorem step_placed (s : State) {r : Request} (rest : List Request) {i : Instr} (hdecode : decode r.cw = .ok i) :
    step { s with pending := r :: rest } = exec i { s with pending := rest, ports := r.ports } :=
  step_legal (s := { s with pending := r :: rest }) rfl hdecode

theorem exec_install_written {s : State} {v : Nat} (hready : s.Ready) (hwf : s.mem.wf) (hv : v < s.cfg.nSlots) :
    ∃ t, exec (.install v) s = .next t ∧ t.resp = some .done ∧ t.slot v = encodeGate s.ports.f :=
  ⟨_, exec_install_inside hready hv, rfl, slot_setSlot_same s v _ hwf⟩

/-- A request with gate fields for a slot of the table is an INSTALL of that gate: its word decodes back, a slot number
having eight bits (R61). -/
theorem step_gateRequest {s : State} {v : Nat} (rest : List Request) (f : GateFields) (hready : s.Ready)
    (hwf : s.mem.wf) (hv : v < s.cfg.nSlots) :
    ∃ t, step { s with pending := gateRequest (.install v) f :: rest } = .next t ∧ t.resp = some .done ∧
      t.slot v = encodeGate f := by
  obtain ⟨-, hhi⟩ := nSlots_of_configValid hready.1
  have fits : (Instr.install v).wellFormed = true := decide_eq_true (hv.trans_le hhi)
  have hdecode : decode (gateRequest (.install v) f).cw = .ok (.install v) := encodedCommandsDecodeBack _ fits
  rw [step_placed s rest hdecode]
  exact exec_install_written (s := { s with pending := rest, ports := (gateRequest (.install v) f).ports }) hready hwf
    hv

theorem step_plainRequest (s : State) (rest : List Request) {i : Instr} (hwf : i.wellFormed = true) :
    step { s with pending := plainRequest i :: rest } = exec i { s with pending := rest, ports := Ports.idle } :=
  step_placed s rest (r := plainRequest i) (encodedCommandsDecodeBack i hwf)

/-- Settles O53: CLEAR, IGATE and TGATE are gate requests (`step_gateRequest`), CLEAR's of the gate whose word is 0; EI
and DI are SETIE with no port operand (`step_plainRequest`). -/
theorem pseudoInstructionsExpand : Obligations.PseudoInstructionsExpand := by
  unfold Obligations.PseudoInstructionsExpand
  intro s rest v hready hwf hv
  exact ⟨step_gateRequest rest ⟨0, 0, 0, 0, 0, 0⟩ hready hwf hv,
    fun h => step_gateRequest rest (kernelGate s.cfg h) hready hwf hv,
    fun h d => step_gateRequest rest ⟨h, s.cfg.kernelCs, 7, 1, d, 1⟩ hready hwf hv,
    step_plainRequest s rest rfl, step_plainRequest s rest rfl⟩

/-! ### Repeated commands (R47) -/

/-- Writing a slot with the word it holds changes nothing. -/
theorem setSlot_of_slot_eq {s : State} {v : Nat} {w : DescWord} (hwf : s.mem.wf) (h : s.slot v = w) :
    s.setSlot v w = s := by
  have mem : (s.setSlot v w).mem = s.mem := by
    refine Memory.ext_get (wf_setSlot s v w hwf) hwf fun a => ?_
    by_cases ha : slotAddr s.cfg v ≤ a ∧ a < slotAddr s.cfg v + 8
    · obtain ⟨k, rfl⟩ := Nat.exists_eq_add_of_le ha.1
      have hk : k < 8 := by omega
      rw [get_setSlot_same s v w hwf hk, get_slotAddr_add s v hk, h]
    · exact get_setSlot_other s v w (by omega)
  calc s.setSlot v w
    _ = { s with mem := (s.setSlot v w).mem } := rfl
    _ = s := by rw [mem]

/-- A pass that writes the words the slots hold changes nothing. -/
theorem setSlots_of_slots_eq {s : State} {f : Nat → DescWord} (hwf : s.mem.wf) :
    ∀ n, (∀ v < n, s.slot v = f v) → s.setSlots f n = s
  | 0, _ => rfl
  | n + 1, h => by
    rw [State.setSlots, setSlots_of_slots_eq hwf n fun v hv => h v (by omega), setSlot_of_slot_eq hwf (h n (by omega))]

theorem nextPhaseInit_idem (p : Phase) : nextPhaseInit (nextPhaseInit p) = nextPhaseInit p := by
  cases p <;> rfl

theorem wf_initialised {s : State} (hwf : s.mem.wf) : (initialised s).mem.wf :=
  wf_setSlots s (initWord s.cfg) hwf s.cfg.nSlots

theorem initialised_idem {s : State} (hwf : s.mem.wf) : initialised (initialised s) = initialised s := by
  have pass : (initialised s).setSlots (initWord s.cfg) s.cfg.nSlots = initialised s :=
    setSlots_of_slots_eq (wf_initialised hwf) _ fun v hv => slot_initialised hwf hv
  calc initialised (initialised s)
    _ = { initialised s with
          mem := ((initialised s).setSlots (initWord s.cfg) s.cfg.nSlots).mem
          phase := nextPhaseInit (nextPhaseInit s.phase) } := rfl
    _ = initialised s := by rw [pass, nextPhaseInit_idem]; rfl

/-- A command that only answers gives the same answer again. -/
theorem exec_again_of_answers {i : Instr} {s : State} {r : Response} (hready : s.Ready) (h : Answers s i r) :
    exec i { s with resp := some r } = .next { s with resp := some r } :=
  (exec_resp_irrel i s (some r)).trans (exec_of_answers hready h)

theorem exec_install_again {s : State} {v : Nat} (hready : s.Ready) (hwf : s.mem.wf) (hv : v < s.cfg.nSlots) :
    exec (.install v) { s.setSlot v (encodeGate s.portF) with resp := some .done } =
      .next { s.setSlot v (encodeGate s.portF) with resp := some .done } := by
  have kept := setSlot_of_slot_eq (wf_setSlot s v _ hwf) (slot_setSlot_same s v (encodeGate s.portF) hwf)
  rw [exec_resp_irrel, exec_install_inside (s := s.setSlot v (encodeGate s.portF)) hready hv]
  exact congrArg (fun t : State => Host.Outcome.next { t with resp := some .done }) kept

theorem place_lt_length {s : State} {i : Nat} (hvalid : validIrq s.cfg i = true) (hlength : s.reg.length = s.cfg.nIrq) :
    i - s.cfg.irqBase < s.reg.length := by
  obtain ⟨hlo, hhi⟩ := validIrq_iff.1 hvalid
  omega

theorem isBound_setReg_same {s : State} {i : Nat} {e : RegEntry} (hvalid : validIrq s.cfg i = true)
    (hlength : s.reg.length = s.cfg.nIrq) (he : e.bound = true) : (s.setReg i e).isBound i = true := by
  refine isBound_iff.2 ⟨hvalid, ?_⟩
  rw [regAt_setReg_same e (place_lt_length hvalid hlength), he]

theorem exec_init_again {s : State} (hready : s.Ready) (hwf : s.mem.wf) (hie : s.ie = false) :
    exec .init (initialised s) = .next (initialised s) := by
  have ready : (initialised s).Ready := hready
  rw [exec_init_disabled ready hie, initialised_idem hwf]

/-- LOAD computes its image from the configuration alone, so a second one writes what the first did. -/
theorem exec_load_again {s : State} (hready : s.Ready) (hie : s.ie = false) :
    exec .load { s.installIdtr (loadImage s.cfg) with resp := some (.idtr (loadImage s.cfg).image) } =
      .next { s.installIdtr (loadImage s.cfg) with resp := some (.idtr (loadImage s.cfg).image) } := by
  have ready : (s.installIdtr (loadImage s.cfg)).Ready := hready
  rw [exec_resp_irrel, exec_load_built ready (by simp) hie]
  rfl

section
variable {s : State} {i : Nat} {e : RegEntry} (p : Ports) (r : Option Response) (hready : s.Ready)
  (hvalid : validIrq s.cfg i = true) (hlength : s.reg.length = s.cfg.nIrq) (he : e.bound = true)
include hready hvalid hlength he

/-- A REG of an identifier that has just been bound is refused, whatever the ports and the response hold by then. -/
theorem exec_reg_registered (hphase : s.phase ≠ .uninitialized) :
    exec (.reg i) { s.setReg i e with ports := p, resp := r } =
      .next { s.setReg i e with ports := p, resp := some (.status .alreadyBound) } := by
  have ready : State.Ready { s.setReg i e with ports := p, resp := r } := hready
  exact exec_reg_bound ready hphase (isBound_setReg_same hvalid hlength he)

/-- A DISP of it calls with what the entry holds. -/
theorem exec_disp_registered (hi : i ∉ s.inService) :
    exec (.disp i) { s.setReg i e with ports := p, resp := r } =
      .next { (s.setReg i e).pushService i with ports := p, resp := some (.call e.handler e.tag p.c) } := by
  have ready : State.Ready { s.setReg i e with ports := p, resp := r } := hready
  have entry : (s.setReg i e).regAt i = e := regAt_setReg_same e (place_lt_length hvalid hlength)
  rw [exec_disp_bound ready hi (isBound_setReg_same hvalid hlength he)]
  exact congrArg (fun entry : RegEntry => Host.Outcome.next { (s.setReg i e).pushService i with
    ports := p, resp := some (.call entry.handler entry.tag p.c) }) entry

end

/-- Settles O39: the first two clauses case by case of the first run's effect, each command of the second one writing
what its element holds already; a second REG is refused (`exec_reg_registered`), and a Call is a DISP's, which pushes
(`Effect.of_call`). -/
theorem repeatedCommands : Obligations.RepeatedCommands := by
  unfold Obligations.RepeatedCommands
  refine ⟨?answerOnly, ?idempotent, ?reg, ?disp⟩
  case answerOnly =>
    intro s t i hi h hfault
    obtain ⟨hready, heffect⟩ := exec_effect h
    cases heffect with
    | raises => exact absurd hfault (faultCode_ne_zero _)
    | answers hanswers => exact ⟨rfl, exec_again_of_answers hready hanswers⟩
    | _ => simp at hi
  case idempotent =>
    intro s t i hi hwf h hfault
    obtain ⟨hready, heffect⟩ := exec_effect h
    cases heffect with
    | raises => exact absurd hfault (faultCode_ne_zero _)
    | answers hanswers => exact exec_again_of_answers hready hanswers
    | install hv => exact exec_install_again hready hwf hv
    | init hie => exact exec_init_again hready hwf hie
    | load _ hie => exact exec_load_again hready hie
    | _ => simp at hi
  case reg =>
    intro s t i hlength h hok
    obtain ⟨hready, heffect⟩ := exec_effect h
    cases heffect with
    | raises => cases hok
    | answers hanswers =>
      obtain rfl := Option.some.inj hok
      obtain ⟨-, ⟨-, hr⟩ | ⟨-, -, hr⟩⟩ := hanswers <;> cases hr
    | reg hphase hvalid => exact exec_reg_registered s.ports _ hready hvalid hlength rfl hphase
  case disp =>
    intro s t i a g c h hcall
    obtain ⟨-, heffect⟩ := exec_effect h
    obtain ⟨n, hn, -, -, pushed⟩ := heffect.of_call hcall
    injection hn with hn
    rw [pushed, hn]

end Sys2Proof.Machine
end

section
/-! Proofs: the registry along several commands and a whole run (42_dispatch_registry.md R110, R112). -/

namespace Sys2Proof.Machine

/-- Settles O32: the first REG binds the identifier (`exec_reg_free`), the second one finds it bound
(`exec_reg_registered`), and the DISP calls what the first one bound (`exec_disp_registered`). -/
theorem secondRegistrationIsRejected : Obligations.SecondRegistrationIsRejected := by
  unfold Obligations.SecondRegistrationIsRejected
  intro s i second disp hready hphase hvalid hlength htag hfree hi
  exact ⟨_, _, _, exec_reg_free hready hphase hvalid htag hfree, rfl,
    exec_reg_registered second _ hready hvalid hlength rfl hphase, rfl,
    exec_disp_registered disp _ hready hvalid hlength rfl hi, rfl⟩

/-- A bound entry stays as it is along every run. -/
theorem reaches_keeps_bound {s t : State} {i : Nat} (hbound : s.isBound i = true) (h : Reaches s t) :
    t.isBound i = true ∧ t.regAt i = s.regAt i := by
  induction h with
  | refl => exact ⟨hbound, rfl⟩
  | step _ hstep ih =>
    obtain ⟨ihBound, ihEntry⟩ := ih
    obtain ⟨-, hentry⟩ := step_keeps_bound ihBound hstep
    exact ⟨step_keeps_isBound ihBound hstep, hentry.trans ihEntry⟩

/-- Settles O31: the entry stays (`reaches_keeps_bound`), and a Call carries the handler and the tag of the entry of its
DISP's identifier (`Effect.of_call`). -/
theorem oneHandlerPerIdentifier : Obligations.OneHandlerPerIdentifier := by
  unfold Obligations.OneHandlerPerIdentifier
  intro s t i hreach hbound
  obtain ⟨-, hentry⟩ := reaches_keeps_bound hbound hreach
  refine ⟨hentry, fun u a g c h hcall => ?_⟩
  obtain ⟨-, heffect⟩ := exec_effect h
  obtain ⟨n, hn, hhandler, htag, -⟩ := heffect.of_call hcall
  injection hn with hn
  rw [← hn, hentry] at hhandler htag
  exact ⟨hhandler, htag⟩

end Sys2Proof.Machine
end
